-- ==== Sys2Proof/Word.lean ====
section
/-! DEFINITION. The words of ChipM8-Core: its bytes, its 16-bit words and its register numbers (10_state.md R20, R23). -/

namespace Sys2Proof

/-- A byte: a general register, a timer, a byte of memory or of the screen's byte view (R12, R20). -/
abbrev Byte := BitVec 8

/-- A 16-bit word: an opcode, `PC`, `SP` or `I` (R12, R80). -/
abbrev Word := BitVec 16

/-- The number of a general register: a 4-bit field of the opcode, so every number names a register (R20). -/
abbrev Reg := Fin 16

end Sys2Proof
end

