-- ==== Sys2Proof/Syntax.lean ====
section
/-! DEFINITION. The 34 instructions of the opcode map (30_encoding.md R86), one constructor for each row, in the map's
order. Operands are R81's fields: `x` and `y` are register numbers, `kk` is the immediate byte, `addr` is the 12-bit
address zero-extended to a word (R83), `n` is the count of sprite bytes. -/

namespace Sys2Proof

/-- An instruction, named after its row's id in R86. WellFormed.lean says which `addr` and `n` an encoding can hold. -/
inductive Instr where
  /-- `00E0` (R110). -/
  | cls
  /-- `00EE` (R124). -/
  | ret
  /-- `1nnn` (R125). -/
  | jp (addr : Word)
  /-- `2nnn` (R126). -/
  | call (addr : Word)
  /-- `3xkk` (R130). -/
  | seImm (x : Reg) (kk : Byte)
  /-- `4xkk` (R131). -/
  | sneImm (x : Reg) (kk : Byte)
  /-- `5xy0` (R132). -/
  | seReg (x y : Reg)
  /-- `6xkk` (R140). -/
  | ldImm (x : Reg) (kk : Byte)
  /-- `7xkk` (R141). -/
  | addImm (x : Reg) (kk : Byte)
  /-- `8xy0` (R142). -/
  | ldReg (x y : Reg)
  /-- `8xy1` (R143). -/
  | orReg (x y : Reg)
  /-- `8xy2` (R144). -/
  | andReg (x y : Reg)
  /-- `8xy3` (R145). -/
  | xorReg (x y : Reg)
  /-- `8xy4` (R147). -/
  | addReg (x y : Reg)
  /-- `8xy5` (R148). -/
  | sub (x y : Reg)
  /-- `8xy6` (R149). -/
  | shr (x y : Reg)
  /-- `8xy7` (R150). -/
  | subn (x y : Reg)
  /-- `8xyE` (R151). -/
  | shl (x y : Reg)
  /-- `9xy0` (R133). -/
  | sneReg (x y : Reg)
  /-- `Annn` (R160). -/
  | ldI (addr : Word)
  /-- `Bnnn` (R127). -/
  | jpV0 (addr : Word)
  /-- `Cxkk` (R156). -/
  | rnd (x : Reg) (kk : Byte)
  /-- `Dxyn` (R111). -/
  | drw (x y : Reg) (n : Nat)
  /-- `Ex9E` (R134). -/
  | skp (x : Reg)
  /-- `ExA1` (R135). -/
  | sknp (x : Reg)
  /-- `Fx07` (R170). -/
  | ldVxDt (x : Reg)
  /-- `Fx0A` (R171). -/
  | ldVxK (x : Reg)
  /-- `Fx15` (R172). -/
  | ldDtVx (x : Reg)
  /-- `Fx18` (R173). -/
  | ldStVx (x : Reg)
  /-- `Fx1E` (R161). -/
  | addI (x : Reg)
  /-- `Fx29` (R162). -/
  | ldF (x : Reg)
  /-- `Fx33` (R163). -/
  | ldB (x : Reg)
  /-- `Fx55` (R164). -/
  | ldMemVx (x : Reg)
  /-- `Fx65` (R165). -/
  | ldVxMem (x : Reg)
  deriving DecidableEq, Repr

end Sys2Proof
end

