-- ==== Sys2Proof/WellFormed.lean ====
section
/-! DEFINITION. Which instructions an opcode can hold: `addr` has 12 bits and `n` has 4 (30_encoding.md R81, R83). The
other fields fill their types. -/

namespace Sys2Proof

/-- `addr` fits the 12-bit field `w[11:0]` (R81). -/
def fitsAddr (addr : Word) : Bool := addr < 0x1000

/-- `n` fits the 4-bit field `w[3:0]` (R81): a count of 0 to 15 sprite bytes (R83). -/
def fitsCount (n : Nat) : Bool := n < 16

/-- Every operand fits its field (R81, R83). -/
def Instr.wellFormed (i : Instr) : Bool :=
  match i with
  | .cls => true
  | .ret => true
  | .jp addr => fitsAddr addr
  | .call addr => fitsAddr addr
  | .seImm _ _ => true
  | .sneImm _ _ => true
  | .seReg _ _ => true
  | .ldImm _ _ => true
  | .addImm _ _ => true
  | .ldReg _ _ => true
  | .orReg _ _ => true
  | .andReg _ _ => true
  | .xorReg _ _ => true
  | .addReg _ _ => true
  | .sub _ _ => true
  | .shr _ _ => true
  | .subn _ _ => true
  | .shl _ _ => true
  | .sneReg _ _ => true
  | .ldI addr => fitsAddr addr
  | .jpV0 addr => fitsAddr addr
  | .rnd _ _ => true
  | .drw _ _ n => fitsCount n
  | .skp _ => true
  | .sknp _ => true
  | .ldVxDt _ => true
  | .ldVxK _ => true
  | .ldDtVx _ => true
  | .ldStVx _ => true
  | .addI _ => true
  | .ldF _ => true
  | .ldB _ => true
  | .ldMemVx _ => true
  | .ldVxMem _ => true

end Sys2Proof
end

