-- ==== Sys2Proof/Decode.lean ====
section
/-! DEFINITION. The decoder: byte order (20_memory.md R49, R50), the fields of an opcode (30_encoding.md R81), the opcode
map by mask and match (R86, R99), and after it the encoder, written from R82's patterns. -/

namespace Sys2Proof

/-! ### Byte order -/

/-- `hi(v) = v[15:8]` (R14). -/
def hiByte (v : Word) : Byte := v.extractLsb' 8 8

/-- `lo(v) = v[7:0]` (R14). -/
def loByte (v : Word) : Byte := v.extractLsb' 0 8

/-- The word whose first, more significant byte is `hi` (R49, R50: big-endian). -/
def wordOfBytes (hi lo : Byte) : Word := hi ++ lo

/-! ### Fields -/

/-- `x = w[11:8]`, a register number (R81). -/
def fieldX (w : Word) : Reg := Fin.ofNat 16 (w.toNat / 256)

/-- `y = w[7:4]`, a register number (R81). -/
def fieldY (w : Word) : Reg := Fin.ofNat 16 (w.toNat / 16)

/-- `n = w[3:0]`, a count (R81, R83). -/
def fieldN (w : Word) : Nat := w.toNat % 16

/-- `kk = w[7:0]`, the immediate byte (R81). -/
def fieldKk (w : Word) : Byte := loByte w

/-- `addr = w[11:0]`, zero-extended to a word (R81, R83). -/
def fieldAddr (w : Word) : Word := BitVec.ofNat 16 (w.toNat % 4096)

/-! ### The opcode map -/

/-- A row of the opcode map: a word `w` is the row's instruction when `w & mask = pattern` (R86), and `build` takes its
operands from the word's fields. -/
structure DecodeRow where
  pattern : Word
  mask    : Word
  build   : Word → Instr

/-- The row matches the word: `w & mask = match` (R86). -/
def DecodeRow.covers (r : DecodeRow) (w : Word) : Bool := w &&& r.mask == r.pattern

/-- Rows 1 to 7 of R86. -/
def rowsControlSkip : List DecodeRow :=
  [ ⟨0x00E0, 0xFFFF, fun _ => .cls⟩,
    ⟨0x00EE, 0xFFFF, fun _ => .ret⟩,
    ⟨0x1000, 0xF000, fun w => .jp (fieldAddr w)⟩,
    ⟨0x2000, 0xF000, fun w => .call (fieldAddr w)⟩,
    ⟨0x3000, 0xF000, fun w => .seImm (fieldX w) (fieldKk w)⟩,
    ⟨0x4000, 0xF000, fun w => .sneImm (fieldX w) (fieldKk w)⟩,
    ⟨0x5000, 0xF00F, fun w => .seReg (fieldX w) (fieldY w)⟩ ]

/-- Rows 8 to 18 of R86. -/
def rowsAlu : List DecodeRow :=
  [ ⟨0x6000, 0xF000, fun w => .ldImm (fieldX w) (fieldKk w)⟩,
    ⟨0x7000, 0xF000, fun w => .addImm (fieldX w) (fieldKk w)⟩,
    ⟨0x8000, 0xF00F, fun w => .ldReg (fieldX w) (fieldY w)⟩,
    ⟨0x8001, 0xF00F, fun w => .orReg (fieldX w) (fieldY w)⟩,
    ⟨0x8002, 0xF00F, fun w => .andReg (fieldX w) (fieldY w)⟩,
    ⟨0x8003, 0xF00F, fun w => .xorReg (fieldX w) (fieldY w)⟩,
    ⟨0x8004, 0xF00F, fun w => .addReg (fieldX w) (fieldY w)⟩,
    ⟨0x8005, 0xF00F, fun w => .sub (fieldX w) (fieldY w)⟩,
    ⟨0x8006, 0xF00F, fun w => .shr (fieldX w) (fieldY w)⟩,
    ⟨0x8007, 0xF00F, fun w => .subn (fieldX w) (fieldY w)⟩,
    ⟨0x800E, 0xF00F, fun w => .shl (fieldX w) (fieldY w)⟩ ]

/-- Rows 19 to 25 of R86. -/
def rowsIndexDisplayKey : List DecodeRow :=
  [ ⟨0x9000, 0xF00F, fun w => .sneReg (fieldX w) (fieldY w)⟩,
    ⟨0xA000, 0xF000, fun w => .ldI (fieldAddr w)⟩,
    ⟨0xB000, 0xF000, fun w => .jpV0 (fieldAddr w)⟩,
    ⟨0xC000, 0xF000, fun w => .rnd (fieldX w) (fieldKk w)⟩,
    ⟨0xD000, 0xF000, fun w => .drw (fieldX w) (fieldY w) (fieldN w)⟩,
    ⟨0xE09E, 0xF0FF, fun w => .skp (fieldX w)⟩,
    ⟨0xE0A1, 0xF0FF, fun w => .sknp (fieldX w)⟩ ]

/-- Rows 26 to 34 of R86. -/
def rowsTimerMemory : List DecodeRow :=
  [ ⟨0xF007, 0xF0FF, fun w => .ldVxDt (fieldX w)⟩,
    ⟨0xF00A, 0xF0FF, fun w => .ldVxK (fieldX w)⟩,
    ⟨0xF015, 0xF0FF, fun w => .ldDtVx (fieldX w)⟩,
    ⟨0xF018, 0xF0FF, fun w => .ldStVx (fieldX w)⟩,
    ⟨0xF01E, 0xF0FF, fun w => .addI (fieldX w)⟩,
    ⟨0xF029, 0xF0FF, fun w => .ldF (fieldX w)⟩,
    ⟨0xF033, 0xF0FF, fun w => .ldB (fieldX w)⟩,
    ⟨0xF055, 0xF0FF, fun w => .ldMemVx (fieldX w)⟩,
    ⟨0xF065, 0xF0FF, fun w => .ldVxMem (fieldX w)⟩ ]

/-- The opcode map, its rows in R86's order, which is the priority order R87 fixes. -/
def decodeTable : List DecodeRow :=
  rowsControlSkip ++ rowsAlu ++ rowsIndexDisplayKey ++ rowsTimerMemory

/-- The instruction of an opcode: the row that covers it (R99), or none where no row does (R89). -/
def decodeWord (w : Word) : Option Instr :=
  (decodeTable.find? (·.covers w)).map (·.build w)

/-! ### Decoding bytes -/

/-- Why bytes are not an instruction. -/
inductive DecodeError where
  /-- Fewer than two bytes: every instruction has exactly two (R80). -/
  | tooShort
  /-- The word matches no row of R86 (R89). -/
  | unknownOpcode (w : Word)
  deriving DecidableEq, Repr

/-- Decode the first instruction of a list of bytes and give back the bytes after it (R80: always two are consumed). -/
def decode (bytes : List Byte) : Except DecodeError (Instr × List Byte) :=
  match bytes with
  | hi :: lo :: rest =>
    match decodeWord (wordOfBytes hi lo) with
    | some i => .ok (i, rest)
    | none => .error (.unknownOpcode (wordOfBytes hi lo))
  | _ => .error .tooShort

/-! ### Encoding -/

/-- Format `F_NNN`: `oooo nnnn nnnn nnnn` (R82). -/
def encodeNnn (op : Nat) (addr : Word) : Word := BitVec.ofNat 16 (op * 0x1000 + addr.toNat)

/-- Format `F_XKK`: `oooo xxxx kkkk kkkk` (R82). -/
def encodeXkk (op : Nat) (x : Reg) (kk : Byte) : Word :=
  BitVec.ofNat 16 (op * 0x1000 + x.val * 0x100 + kk.toNat)

/-- Formats `F_XY` and `F_XYN`: `oooo xxxx yyyy mmmm` (R82), where `low` is the minor opcode or the count. -/
def encodeXyn (op : Nat) (x y : Reg) (low : Nat) : Word :=
  BitVec.ofNat 16 (op * 0x1000 + x.val * 0x100 + y.val * 0x10 + low)

/-- Format `F_X`: `oooo xxxx ssss ssss` (R82). -/
def encodeX (op : Nat) (x : Reg) (minor : Nat) : Word :=
  BitVec.ofNat 16 (op * 0x1000 + x.val * 0x100 + minor)

/-- The opcode of an instruction, from R82's patterns and R86's fixed bits. -/
def encode (i : Instr) : Word :=
  match i with
  | .cls => 0x00E0
  | .ret => 0x00EE
  | .jp addr => encodeNnn 0x1 addr
  | .call addr => encodeNnn 0x2 addr
  | .seImm x kk => encodeXkk 0x3 x kk
  | .sneImm x kk => encodeXkk 0x4 x kk
  | .seReg x y => encodeXyn 0x5 x y 0x0
  | .ldImm x kk => encodeXkk 0x6 x kk
  | .addImm x kk => encodeXkk 0x7 x kk
  | .ldReg x y => encodeXyn 0x8 x y 0x0
  | .orReg x y => encodeXyn 0x8 x y 0x1
  | .andReg x y => encodeXyn 0x8 x y 0x2
  | .xorReg x y => encodeXyn 0x8 x y 0x3
  | .addReg x y => encodeXyn 0x8 x y 0x4
  | .sub x y => encodeXyn 0x8 x y 0x5
  | .shr x y => encodeXyn 0x8 x y 0x6
  | .subn x y => encodeXyn 0x8 x y 0x7
  | .shl x y => encodeXyn 0x8 x y 0xE
  | .sneReg x y => encodeXyn 0x9 x y 0x0
  | .ldI addr => encodeNnn 0xA addr
  | .jpV0 addr => encodeNnn 0xB addr
  | .rnd x kk => encodeXkk 0xC x kk
  | .drw x y n => encodeXyn 0xD x y n
  | .skp x => encodeX 0xE x 0x9E
  | .sknp x => encodeX 0xE x 0xA1
  | .ldVxDt x => encodeX 0xF x 0x07
  | .ldVxK x => encodeX 0xF x 0x0A
  | .ldDtVx x => encodeX 0xF x 0x15
  | .ldStVx x => encodeX 0xF x 0x18
  | .addI x => encodeX 0xF x 0x1E
  | .ldF x => encodeX 0xF x 0x29
  | .ldB x => encodeX 0xF x 0x33
  | .ldMemVx x => encodeX 0xF x 0x55
  | .ldVxMem x => encodeX 0xF x 0x65

/-- The two bytes of an instruction as they stand in memory, the more significant first (R49). -/
def encodeBytes (i : Instr) : List Byte := [hiByte (encode i), loByte (encode i)]

/-- The instruction the decoder reads from an opcode of the table: `w` is numbered as the table numbers it (bit 0 the least
significant bit of the one 16-bit word), and has no bits from `nbits` up. -/
def decodeTableWord (nbits w : Nat) : Option Instr :=
  let word : Word := BitVec.ofNat 16 (w % 2 ^ nbits)
  match decode [hiByte word, loByte word] with
  | .ok (i, _) => some i
  | .error _ => none

end Sys2Proof
end

