-- ==== Sys2Proof/Config.lean ====
section
/-! DEFINITION. What one instance of the block fixes at its construction (00_scope.md R10 to R13, R41): the memory's
capacity, the stack pointer's reset value, the font table, the bus map; and the one free value, the random byte of
`Cxkk`. -/

namespace Sys2Proof

/-- The devices of the block a host can name (R2, R35). -/
inductive Device where
  | memory
  | screen
  | input
  deriving DecidableEq, Repr

/-- A host's request to map a device at the global addresses `[lower, upper)` (R60). -/
structure Registration where
  dev   : Device
  lower : Nat
  upper : Nat
  deriving DecidableEq, Repr

/-- The parameters of an instance (R10, R13, R41). `ADDR_SPACE` is `memSize` (R11). -/
structure Config where
  /-- `MEM_SIZE`, from 4096 to 65536 (R10). -/
  memSize  : Nat
  /-- `SP_RESET`, left open by the spec (R13, R25). -/
  spReset  : Word
  /-- The 80 bytes of the font table (R222, decision D22). -/
  font     : Vector Byte 80
  /-- The readable half of `BUS_MAP` (R13, R62). -/
  readable : List Registration
  /-- The writable half of `BUS_MAP` (R13, R62). -/
  writable : List Registration
  deriving DecidableEq, Repr

/-- The standard CHIP-8 hex font, as R222 lists it. PRESUMED (log 5): the spec supplies these bytes from general
knowledge. -/
def Config.standardFont : Vector Byte 80 := #v[
  0xF0, 0x90, 0x90, 0x90, 0xF0,   0x20, 0x60, 0x20, 0x20, 0x70,
  0xF0, 0x10, 0xF0, 0x80, 0xF0,   0xF0, 0x10, 0xF0, 0x10, 0xF0,
  0x90, 0x90, 0xF0, 0x10, 0x10,   0xF0, 0x80, 0xF0, 0x10, 0xF0,
  0xF0, 0x80, 0xF0, 0x90, 0xF0,   0xF0, 0x10, 0x20, 0x40, 0x40,
  0xF0, 0x90, 0xF0, 0x90, 0xF0,   0xF0, 0x90, 0xF0, 0x10, 0xF0,
  0xF0, 0x90, 0xF0, 0x90, 0x90,   0xE0, 0x90, 0xE0, 0x90, 0xE0,
  0xF0, 0x80, 0x80, 0x80, 0xF0,   0xE0, 0x90, 0x90, 0x90, 0xE0,
  0xF0, 0x80, 0xF0, 0x80, 0xF0,   0xF0, 0x80, 0xF0, 0x80, 0x80]

/-- The parameters' defaults: `MEM_SIZE = 4096` (R10), memory at `[0, MEM_SIZE)` in both registries (R62), the standard
font (R222). DESIGN CHOICE (log 3): `SP_RESET = 0x1000`, the value the spec's own vectors premise (R225). -/
def Config.standard : Config where
  memSize  := 4096
  spReset  := 0x1000
  font     := Config.standardFont
  readable := [⟨.memory, 0, 4096⟩]
  writable := [⟨.memory, 0, 4096⟩]

/-- The random byte of the `n`-th draw of `RNG` (R13, R157): a free value, nothing in the model constrains it (log 6). -/
opaque Config.rng : Nat → Byte

end Sys2Proof
end

