-- ==== Sys2Proof/Machine/State.lean ====
section
/-! DEFINITION. The state of the block as plain data (10_state.md), the reasons a step ends without a next state
(60_exceptions.md R180), and the state after reset (R40, R221). -/

namespace Sys2Proof.Machine

/-! ### Devices -/

/-- The Memory Device (R30): its capacity `MEM_SIZE`, fixed at construction, and its bytes. `cells` lists, in rising
order of address, the bytes that differ from what an unlisted address reads as (Ops.lean, `Memory.background`). -/
structure Memory where
  size  : Nat
  cells : List Host.Cell
  deriving DecidableEq, Repr

/-- The Screen Device's pixel grid (R31): 32 rows of 64 one-bit pixels. The most significant bit of a row is its column
0, so the row's eight bytes, most significant first, are the byte view's `S[8r]` to `S[8r+7]` (R54). -/
structure Screen where
  rows : Vector (BitVec 64) 32
  deriving DecidableEq, Repr

/-- The Input Device's wait latch `W` (R33). -/
structure WaitLatch where
  target : Reg
  active : Bool
  deriving DecidableEq, Repr

/-- A device the bus can route to: the Input Device has no bus-facing interface (R59). -/
inductive BusDevice where
  | memory
  | screen
  deriving DecidableEq, Repr

/-- An entry of a bus registry: a device and the global addresses `[lower, upper)` (R35). -/
structure BusEntry where
  dev   : BusDevice
  lower : Nat
  upper : Nat
  deriving DecidableEq, Repr

/-! ### State -/

/-- Everything the spec gives the block (R20 to R35), and the count of draws, which is the model's own (log 6). -/
structure State where
  /-- The general registers `V[0]` to `V[15]` (R20). -/
  v        : Vector Byte 16
  /-- The program counter (R23). -/
  pc       : Word
  /-- The address register `I` (R24). -/
  i        : Word
  /-- The stack pointer (R25). -/
  sp       : Word
  /-- The delay timer (R26). -/
  dt       : Byte
  /-- The sound timer (R27). -/
  st       : Byte
  /-- The Memory Device (R30). -/
  mem      : Memory
  /-- The Screen Device (R31). -/
  screen   : Screen
  /-- The key states `K[0]` to `K[15]` (R32). -/
  keys     : Vector Bool 16
  /-- The wait latch (R33). The interpreter is Halted exactly while it is active (R34). -/
  wait     : WaitLatch
  /-- The readable registry `RR`, in order of registration (R35). -/
  readable : List BusEntry
  /-- The writable registry `WR`, in order of registration (R35). -/
  writable : List BusEntry
  /-- How many bytes `RNG` has yielded: the model's own counter, which picks the next free value (R157, log 6). -/
  draws    : Nat
  deriving DecidableEq, Repr

/-! ### Errors and refusals -/

/-- The direction of a bus access, and the registry it uses (R63, R64, R180). -/
inductive Direction where
  | read
  | write
  deriving DecidableEq, Repr

/-- Why one byte access fails (R63 to R65). -/
inductive AccessError where
  /-- No entry of the access's registry contains the global address. -/
  | unmapped (dir : Direction) (address : Nat)
  /-- The device-local address is outside the device. -/
  | outOfRange (dev : BusDevice) (address : Nat)
  deriving DecidableEq, Repr

/-- What an `OutOfRange` error records: a device and its local address or index (R180). -/
inductive RangeInfo where
  /-- A local address outside the Memory or the Screen Device (R42, R43, R58). -/
  | address (dev : BusDevice) (address : Nat)
  /-- A key index above 15, given to the Input Device by the host (R192, R193). -/
  | key (index : Nat)
  /-- Pixel coordinates outside the screen, given by the host (R53). -/
  | pixel (row column : Nat)
  deriving DecidableEq, Repr

/-- The five errors of the block (R180). Each carries what the spec records of it and the state that remains: the effects
done before the failing access stay (R186). The model's step ends there, as the spec's runs do (R109, R188). Safe: a
host that ticks again does so on `after` (log 1). -/
inductive Fault where
  /-- Code 1. Raised by the fetch, `00EE`, `2nnn`, `Dxyn`, `Fx33`, `Fx55`, `Fx65` and host bus accesses, at an address
  no entry of the registry contains. Safe: the reference ignores an unmapped write (decision D4), this block does not. -/
  | addressUnmapped (dir : Direction) (address : Nat) (after : State)
  /-- Code 2. Raised by the same accesses where an entry maps past its device's end, and by host accessors given an index
  out of range. Safe. -/
  | outOfRange (info : RangeInfo) (after : State)
  /-- Code 3. Raised by a host registration that overlaps an entry of the same registry (R60). Safe. -/
  | rangeConflict (registry : Direction) (range : Registration) (after : State)
  /-- Code 4. Raised by a host register accessor or `waitForKeyPress` given an index of 16 or more (R39, R195). Safe. -/
  | invalidRegisterIndex (index : Nat) (after : State)
  /-- Code 5. Raised by a tick that fetched a word no row of the opcode map covers, with its address (R103). Safe: the
  source recommends it over the reference's fallthrough (decision D5). -/
  | unknownOpcode (word pc0 : Word) (after : State)
  deriving DecidableEq, Repr

/-- What the model refuses. No instruction refuses: only an arm without a meaning or a host request outside the spec. -/
inductive Refusal where
  /-- An instruction that has no meaning yet, refused by its arm of `exec`. Safe. -/
  | notModelled (mnemonic : String)
  /-- A construction with `MEM_SIZE` outside 4096 to 65536 (R10, decision D1). Safe. -/
  | memSizeOutOfBounds (size : Nat)
  /-- A registration with `lower > upper` (R60, decision D26). Safe. -/
  | invertedRange (lower upper : Nat)
  /-- A registration of the Input Device (R59, decision D21). Safe. -/
  | inputDeviceOnBus
  /-- A host write of a value too wide for its register (R39, decision D32). Safe. -/
  | valueTooWide (value : Nat)
  deriving DecidableEq, Repr

/-- What a step or a host operation on the block answers. -/
abbrev Outcome := Host.Outcome State Fault Refusal

/-! ### Reset -/

/-- The state of a standard instance right after its construction (R40, R220 to R222): nothing is listed in memory, which
reads as the font table and zeros. DESIGN CHOICE: `SP` is `SP_RESET = 0x1000` (log 3); the zeros are the spec's decision
D13 (log 4). -/
def State.reset : State where
  v        := Vector.replicate 16 0
  pc       := 0x200
  i        := 0
  sp       := Config.standard.spReset
  dt       := 0
  st       := 0
  mem      := ⟨Config.standard.memSize, []⟩
  screen   := ⟨Vector.replicate 32 0⟩
  keys     := Vector.replicate 16 false
  wait     := ⟨0, false⟩
  readable := [⟨.memory, 0, Config.standard.memSize⟩]
  writable := [⟨.memory, 0, Config.standard.memSize⟩]
  draws    := 0

end Sys2Proof.Machine
end

