-- ==== Sys2Proof/Machine/Ops.lean ====
section
/-! DEFINITION. The named operations of the block: its devices (20_memory.md), its bus, its registers and its error
operation (60_exceptions.md R185, R186). Every access moves one byte (R69). -/

namespace Sys2Proof.Machine

/-! ### The Memory Device (R30, R42 to R44) -/

/-- What an unlisted address reads as: the byte memory holds at reset, the font table below `0x50` (R222) and 0 above it
(R30, decision D13; log 4, log 5). -/
def Memory.background (a : Nat) : Byte := Config.standardFont.toList.getD a 0

/-- The byte a list of cells gives for an address. -/
def cellsByte (cells : List Host.Cell) (a : Nat) : Byte :=
  match cells with
  | [] => Memory.background a
  | (b, w) :: rest => if b = a then w else cellsByte rest a

/-- `M[a]` (R30). -/
def Memory.byteAt (m : Memory) (a : Nat) : Byte := cellsByte m.cells a

/-- A cell in front of a list of cells, left out where it says what an unlisted address reads as. -/
def consCell (a : Nat) (b : Byte) (rest : List Host.Cell) : List Host.Cell :=
  if b = Memory.background a then rest else (a, b) :: rest

/-- Put a byte into a rising list of cells. -/
def putCell (a : Nat) (b : Byte) (cells : List Host.Cell) : List Host.Cell :=
  match cells with
  | [] => consCell a b []
  | (c, w) :: rest =>
    if a < c then consCell a b ((c, w) :: rest)
    else if a = c then consCell a b rest
    else (c, w) :: putCell a b rest

/-- `M[a] <- b` (R43). -/
def Memory.setByte (m : Memory) (a : Nat) (b : Byte) : Memory := { m with cells := putCell a b m.cells }

/-- The canonical form: addresses rise, none is outside the device, and no cell says what an unlisted address reads as. -/
abbrev Memory.wf (m : Memory) : Prop :=
  m.cells.Pairwise (fun p q => p.1 < q.1) ∧ ∀ c ∈ m.cells, c.1 < m.size ∧ c.2 ≠ Memory.background c.1

/-- `MemDev.read(a)` (R42). -/
def Memory.read (m : Memory) (a : Nat) : Except AccessError Byte :=
  if a < m.size then .ok (m.byteAt a) else .error (.outOfRange .memory a)

/-- `MemDev.write(a, v)` (R43). -/
def Memory.write (m : Memory) (a : Nat) (b : Byte) : Except AccessError Memory :=
  if a < m.size then .ok (m.setByte a b) else .error (.outOfRange .memory a)

/-! ### The Screen Device (R31, R53 to R58) -/

/-- `GetPixel(r, c)` (R53). -/
def Screen.getPixel (p : Screen) (r : Fin 32) (c : Fin 64) : Bool := p.rows[r].getMsbD c

/-- A row of pixels that are off but the one in column `c`. -/
def columnBit (c : Fin 64) : BitVec 64 := BitVec.twoPow 64 (63 - c.val)

/-- `SetPixel(r, c, lit)` (R53). -/
def Screen.setPixel (p : Screen) (r : Fin 32) (c : Fin 64) (lit : Bool) : Screen :=
  ⟨p.rows.set r (if lit then p.rows[r] ||| columnBit c else p.rows[r] &&& ~~~columnBit c)⟩

/-- `ClearScreen()` (R55). -/
def Screen.clear (_ : Screen) : Screen := ⟨Vector.replicate 32 0⟩

/-- The row that holds byte `b` of the byte view (R54). -/
def byteRow (b : Nat) : Fin 32 := Fin.ofNat 32 (b / 8)

/-- The place of byte `b`'s least significant bit in its row (R54: the leftmost column in bit 7). -/
def byteShift (b : Nat) : Nat := 56 - 8 * (b % 8)

/-- `S[b]`: eight pixels of a row, the leftmost in bit 7 (R54). -/
def Screen.byteAt (p : Screen) (b : Nat) : Byte := p.rows[byteRow b].extractLsb' (byteShift b) 8

/-- XOR a byte into `S[b]` (R56). -/
def Screen.xorByte (p : Screen) (b : Nat) (v : Byte) : Screen :=
  ⟨p.rows.set (byteRow b) (p.rows[byteRow b] ^^^ (v.setWidth 64 <<< byteShift b))⟩

/-- `ScreenDev.read(b)` (R57, R58). -/
def Screen.read (p : Screen) (b : Nat) : Except AccessError Byte :=
  if b < 256 then .ok (p.byteAt b) else .error (.outOfRange .screen b)

/-- `ScreenDev.write(b, v)` (R56, R58). -/
def Screen.write (p : Screen) (b : Nat) (v : Byte) : Except AccessError Screen :=
  if b < 256 then .ok (p.xorByte b v) else .error (.outOfRange .screen b)

/-! ### The Address Bus (R35, R60 to R68) -/

/-- The entry contains the global address (R63). -/
def BusEntry.contains (e : BusEntry) (a : Nat) : Bool := e.lower ≤ a && a < e.upper

/-- The first entry, in order of registration, that contains a global address, as its device and the device-local address
(R63, R65). -/
def route (registry : List BusEntry) (a : Nat) : Option (BusDevice × Nat) :=
  (registry.find? (·.contains a)).map fun e => (e.dev, a - e.lower)

/-- One byte read from a device at a local address (R42, R57). -/
def State.deviceRead (s : State) (dev : BusDevice) (a : Nat) : Except AccessError Byte :=
  match dev with
  | .memory => s.mem.read a
  | .screen => s.screen.read a

/-- One byte written to a device at a local address (R43, R56). -/
def State.deviceWrite (s : State) (dev : BusDevice) (a : Nat) (b : Byte) : Except AccessError State :=
  match dev with
  | .memory =>
    match s.mem.write a b with
    | .ok m => .ok { s with mem := m }
    | .error e => .error e
  | .screen =>
    match s.screen.write a b with
    | .ok p => .ok { s with screen := p }
    | .error e => .error e

/-- `Bus.read(a)`, which is `MemRead(a, 1)` (R63, R66). -/
def State.busRead (s : State) (a : Nat) : Except AccessError Byte :=
  match route s.readable a with
  | some (dev, l) => s.deviceRead dev l
  | none => .error (.unmapped .read a)

/-- `Bus.write(a, b)`, which is `MemWrite(a, 1, b)` (R64, R67). -/
def State.busWrite (s : State) (a : Nat) (b : Byte) : Except AccessError State :=
  match route s.writable a with
  | some (dev, l) => s.deviceWrite dev l b
  | none => .error (.unmapped .write a)

/-- The number of bytes of a device (R30, R54). -/
def State.capacity (s : State) (dev : BusDevice) : Nat :=
  match dev with
  | .memory => s.mem.size
  | .screen => 256

/-- A read of the global address succeeds: an entry contains it and the local address is inside the device (R65). -/
def State.canRead (s : State) (a : Nat) : Bool :=
  match route s.readable a with
  | some (dev, l) => l < s.capacity dev
  | none => false

/-- A write of the global address succeeds: an entry contains it and the local address is inside the device (R65). -/
def State.canWrite (s : State) (a : Nat) : Bool :=
  match route s.writable a with
  | some (dev, l) => l < s.capacity dev
  | none => false

/-- Two ranges `[a, b)` and `[c, d)` conflict: `b > c && d > a` (R61). -/
def BusEntry.conflicts (e f : BusEntry) : Bool := f.lower < e.upper && e.lower < f.upper

/-! ### Errors (R185, R186) -/

/-- The error of a failed access, with the state that remains. -/
def AccessError.toFault (e : AccessError) (after : State) : Fault :=
  match e with
  | .unmapped dir a => .addressUnmapped dir a after
  | .outOfRange dev a => .outOfRange (.address dev a) after

/-- `raise`: the operation ends at the failing access, with every effect done before it in place (R185, R186). The block
saves nothing and goes nowhere (R187). -/
def raise (e : AccessError) (s : State) : Outcome := .fault (e.toFault s)

/-- The state an error leaves, from which a host that ticks again goes on: there is no other return from an error
(R188). -/
def Fault.after (f : Fault) : State :=
  match f with
  | .addressUnmapped _ _ s => s
  | .outOfRange _ s => s
  | .rangeConflict _ _ s => s
  | .invalidRegisterIndex _ s => s
  | .unknownOpcode _ _ s => s

/-- The numeric code of an error (R180). -/
def Fault.code (f : Fault) : Nat :=
  match f with
  | .addressUnmapped _ _ _ => 1
  | .outOfRange _ _ => 2
  | .rangeConflict _ _ _ => 3
  | .invalidRegisterIndex _ _ => 4
  | .unknownOpcode _ _ _ => 5

/-- Go on from a next state; an error or a refusal ends the operation (R185). -/
def andThen (o : Outcome) (k : State → Outcome) : Outcome :=
  match o with
  | .next s => k s
  | .fault f => .fault f
  | .refused r => .refused r

/-- Read a byte through the bus and go on with it, or raise the read's error. -/
def withByte (s : State) (a : Nat) (k : Byte → Outcome) : Outcome :=
  match s.busRead a with
  | .ok b => k b
  | .error e => raise e s

/-- Write bytes through the bus, in the order listed (R79); the first error ends the list. -/
def storeBytes (stores : List (Nat × Byte)) (s : State) : Outcome :=
  match stores with
  | [] => .next s
  | (a, b) :: rest =>
    match s.busWrite a b with
    | .ok t => storeBytes rest t
    | .error e => raise e s

/-! ### Registers (R15, R20 to R27) -/

/-- `V[x]` (R15). -/
def State.readV (s : State) (x : Reg) : Byte := s.v[x]

/-- `V[x] <- b` (R15). -/
def State.writeV (s : State) (x : Reg) (b : Byte) : State := { s with v := s.v.set x b }

/-- `V[0xF]`, the flag (R21). -/
def flagReg : Reg := 0xF

/-- `PC <- a` (R15). -/
def State.writePc (s : State) (a : Word) : State := { s with pc := a }

/-- `I <- a` (R24). -/
def State.writeI (s : State) (a : Word) : State := { s with i := a }

/-- `SP <- a` (R25). -/
def State.writeSp (s : State) (a : Word) : State := { s with sp := a }

/-- `DT <- b` (R26). -/
def State.writeDt (s : State) (b : Byte) : State := { s with dt := b }

/-- `ST <- b` (R27). -/
def State.writeSt (s : State) (b : Byte) : State := { s with st := b }

/-- Replace the screen. -/
def State.writeScreen (s : State) (p : Screen) : State := { s with screen := p }

/-- `ADDR_SPACE`, which is `MEM_SIZE` (R11). -/
def State.addrSpace (s : State) : Nat := s.mem.size

/-- `PC <- (PC + 2) mod ADDR_SPACE`: the advance (R98) and the effect of a skip (R129). -/
def State.pcPlusTwo (s : State) : State := s.writePc (BitVec.ofNat 16 ((s.pc.toNat + 2) % s.addrSpace))

/-- The effect of a skip once its condition is known (R129). -/
def skipIf (cond : Bool) (s : State) : State := if cond then s.pcPlusTwo else s

/-! ### Keys and draws -/

/-- `KeyPressed(k)` (R36). -/
def State.keyPressed (s : State) (k : Fin 16) : Bool := s.keys[k]

/-- `ArmWait(t)` (R195). -/
def State.armWait (s : State) (t : Reg) : State := { s with wait := ⟨t, true⟩ }

/-- `RandomByte()`: the next draw, a free value (R157, log 6). -/
def State.randomByte (s : State) : Byte := Config.rng s.draws

/-- The state after a draw. -/
def State.drawn (s : State) : State := { s with draws := s.draws + 1 }

end Sys2Proof.Machine
end

