-- ==== Sys2Proof/Machine/Flags.lean ====
section
/-! DEFINITION. What the instructions write to `V[0xF]` as a flag (10_state.md R28): the block has no other flag. -/

namespace Sys2Proof.Machine

/-- A flag as the byte `V[0xF]` takes. -/
def flagByte (b : Bool) : Byte := if b then 1 else 0

/-- The carry of `8xy4`: the unreduced sum is 256 or more (R147). -/
def carryFlag (a b : Byte) : Byte := flagByte (256 ≤ a.toNat + b.toNat)

/-- The NOT-borrow of `8xy5` and `8xy7`: the unreduced difference is not negative (R148, R150, R155). -/
def notBorrowFlag (a b : Byte) : Byte := flagByte (0 ≤ (a.toNat : Int) - (b.toNat : Int))

/-- The bit `8xy6` shifts out: bit 0 (R149). -/
def shiftedOutRight (b : Byte) : Byte := b &&& 1

/-- The bit `8xyE` shifts out: bit 7 (R151). -/
def shiftedOutLeft (b : Byte) : Byte := (b >>> 7) &&& 1

/-- The collision of `Dxyn` (R112). -/
def collisionFlag (hit : Bool) : Byte := flagByte hit

/-- `V[0xF] <- b` (R28). -/
def State.writeFlag (s : State) (b : Byte) : State := s.writeV flagReg b

end Sys2Proof.Machine
end

