-- ==== Sys2Proof/Machine/Alu.lean ====
section
/-! DEFINITION. The register loads, the arithmetic-logic group and the random byte (44_alu.md). Statements run in order
and each reads the state the earlier ones left (00_scope.md R17, decision D6; log 7). -/

namespace Sys2Proof.Machine

/-- `6xkk` (R140). -/
def execLdImm (x : Reg) (kk : Byte) (s : State) : Outcome := .next (s.writeV x kk)

/-- `7xkk` (R141): the sum wraps and no carry is written. -/
def execAddImm (x : Reg) (kk : Byte) (s : State) : Outcome := .next (s.writeV x (s.readV x + kk))

/-- `8xy0` (R142). -/
def execLdReg (x y : Reg) (s : State) : Outcome := .next (s.writeV x (s.readV y))

/-- `8xy1` (R143): no flag (R146). -/
def execOrReg (x y : Reg) (s : State) : Outcome := .next (s.writeV x (s.readV x ||| s.readV y))

/-- `8xy2` (R144): no flag (R146). -/
def execAndReg (x y : Reg) (s : State) : Outcome := .next (s.writeV x (s.readV x &&& s.readV y))

/-- `8xy3` (R145): no flag (R146). -/
def execXorReg (x y : Reg) (s : State) : Outcome := .next (s.writeV x (s.readV x ^^^ s.readV y))

/-- `V[x] <- result`, then `V[0xF] <- flag`: the order of `8xy4`, `8xy5` and `8xy7` (R146). -/
def resultThenFlag (x : Reg) (result flag : Byte) (s : State) : State := (s.writeV x result).writeFlag flag

/-- `8xy4` (R147). -/
def execAddReg (x y : Reg) (s : State) : Outcome :=
  .next (resultThenFlag x (s.readV x + s.readV y) (carryFlag (s.readV x) (s.readV y)) s)

/-- `8xy5` (R148). -/
def execSub (x y : Reg) (s : State) : Outcome :=
  .next (resultThenFlag x (s.readV x - s.readV y) (notBorrowFlag (s.readV x) (s.readV y)) s)

/-- `8xy7` (R150). -/
def execSubn (x y : Reg) (s : State) : Outcome :=
  .next (resultThenFlag x (s.readV y - s.readV x) (notBorrowFlag (s.readV y) (s.readV x)) s)

/-- `8xy6` (R149): the flag is written first, so the shift reads `V[y]` after it (decision D6). -/
def execShr (x y : Reg) (s : State) : Outcome :=
  let flagged := s.writeFlag (shiftedOutRight (s.readV y))
  .next (flagged.writeV x (flagged.readV y >>> 1))

/-- `8xyE` (R151): the flag is written first, so the shift reads `V[y]` after it (decision D6). -/
def execShl (x y : Reg) (s : State) : Outcome :=
  let flagged := s.writeFlag (shiftedOutLeft (s.readV y))
  .next (flagged.writeV x (flagged.readV y <<< 1))

/-- `Cxkk` (R156): the draw is a free value (R157, log 6). -/
def execRnd (x : Reg) (kk : Byte) (s : State) : Outcome := .next (s.drawn.writeV x (s.randomByte &&& kk))

end Sys2Proof.Machine
end

