-- ==== Sys2Proof/Machine/Operands.lean ====
section
/-! DEFINITION. The operand forms: the addresses an instruction makes and the lists of bytes it moves (30_encoding.md
R83, R84; 20_memory.md R78, R79). Addresses are natural numbers and do not wrap (R78, decision D16). -/

namespace Sys2Proof.Machine

/-- The `k`-th memory operand of an instruction that addresses memory by `I`: `I + k`, not wrapped (R78). -/
def State.indexAddress (s : State) (k : Nat) : Nat := s.i.toNat + k

/-- The address of the high byte of the stack entry at `SP` (R50, R121). -/
def State.stackHigh (s : State) : Nat := s.sp.toNat

/-- The address of the low byte of the stack entry at `SP`: `SP + 1`, not wrapped (R78). -/
def State.stackLow (s : State) : Nat := s.sp.toNat + 1

/-- `SP - 2`, modulo 65536 (R25, R126). -/
def pushedSp (sp : Word) : Word := sp - 2

/-- `SP + 2`, modulo 65536 (R25, R124). -/
def poppedSp (sp : Word) : Word := sp + 2

/-- The stores of a push at `SP`: the return address, high byte first (R126). -/
def State.pushStores (s : State) : List (Nat × Byte) :=
  [(s.stackHigh, hiByte s.pc), (s.stackLow, loByte s.pc)]

/-- The target of `Bnnn`: `(addr + V[0]) mod ADDR_SPACE` (R127). -/
def State.offsetTarget (s : State) (addr : Word) : Word :=
  BitVec.ofNat 16 ((addr.toNat + (s.readV 0).toNat) % s.addrSpace)

/-- The key a register selects: its low nibble (R134). -/
def keyOf (b : Byte) : Fin 16 := Fin.ofNat 16 b.toNat

/-- The address of the font glyph of a hex digit: `(b mod 16) * 5` (R162). -/
def glyphAddress (b : Byte) : Word := BitVec.ofNat 16 (b.toNat % 16 * 5)

/-- `(I + V[x]) mod 4096`, whatever the memory's capacity (R12, R161). -/
def indexSum (i : Word) (b : Byte) : Word := BitVec.ofNat 16 ((i.toNat + b.toNat) % 4096)

/-- The stores of `Fx33`: the decimal digits of a byte, hundreds first (R163). -/
def State.digitStores (s : State) (v : Byte) : List (Nat × Byte) :=
  [(s.indexAddress 0, BitVec.ofNat 8 (v.toNat / 100)),
   (s.indexAddress 1, BitVec.ofNat 8 (v.toNat / 10 % 10)),
   (s.indexAddress 2, BitVec.ofNat 8 (v.toNat % 10))]

/-- The registers `V[0]` to `V[x]`, in order, with their numbers (R164, R165). -/
def regsUpTo (x : Reg) : List Reg := (List.range (x.val + 1)).map (Fin.ofNat 16)

/-- The stores of `Fx55`: `V[k]` at `I + k` (R164). -/
def State.blockStores (s : State) (x : Reg) : List (Nat × Byte) :=
  (regsUpTo x).map fun k => (s.indexAddress k.val, s.readV k)

/-- Load registers from `I + k`, in the order listed, each written right after its read (R79, R165). -/
def loadRegs (regs : List Reg) (s : State) : Outcome :=
  match regs with
  | [] => .next s
  | k :: rest => withByte s (s.indexAddress k.val) fun b => loadRegs rest (s.writeV k b)

end Sys2Proof.Machine
end

