-- ==== Sys2Proof/Machine/Control.lean ====
section
/-! DEFINITION. The control transfers `00EE`, `1nnn`, `2nnn` and `Bnnn` (42_control.md). `PC` is already advanced. -/

namespace Sys2Proof.Machine

/-- `00EE` (R124): the popped value is not reduced (decision D15; log 8). -/
def execRet (s : State) : Outcome :=
  withByte s s.stackHigh fun h =>
  withByte s s.stackLow fun l =>
  .next ((s.writePc (wordOfBytes h l)).writeSp (poppedSp s.sp))

/-- `1nnn` (R125). -/
def execJp (addr : Word) (s : State) : Outcome := .next (s.writePc addr)

/-- `2nnn` (R126): `SP` moves first, then the two bytes are written, then `PC`. -/
def execCall (addr : Word) (s : State) : Outcome :=
  let pushed := s.writeSp (pushedSp s.sp)
  andThen (storeBytes pushed.pushStores pushed) fun t => .next (t.writePc addr)

/-- `Bnnn` (R127). -/
def execJpV0 (addr : Word) (s : State) : Outcome := .next (s.writePc (s.offsetTarget addr))

end Sys2Proof.Machine
end

