-- ==== Sys2Proof/Machine/Display.lean ====
section
/-! DEFINITION. The display instructions `00E0` and `Dxyn` (41_display.md). -/

namespace Sys2Proof.Machine

/-- `00E0` (R110). -/
def execCls (s : State) : Outcome := .next (s.writeScreen s.screen.clear)

/-- The row sprite byte `b` is drawn on: `(V[y] + b) mod 32` (R111). -/
def spriteRow (cy : Byte) (b : Nat) : Fin 32 := Fin.ofNat 32 (cy.toNat + b)

/-- The column bit `7 - j` of a sprite byte is drawn on: `(V[x] + j) mod 64` (R111). -/
def spriteColumn (cx : Byte) (j : Nat) : Fin 64 := Fin.ofNat 64 (cx.toNat + j)

/-- Draw one bit of a sprite byte and note a collision (R111). -/
def drawBit (cx : Byte) (r : Fin 32) (sprite : Byte) (acc : Screen × Bool) (j : Nat) : Screen × Bool :=
  if sprite.getLsbD (7 - j) then
    let lit := acc.1.getPixel r (spriteColumn cx j)
    (acc.1.setPixel r (spriteColumn cx j) (!lit), acc.2 || lit)
  else acc

/-- Draw the eight bits of a sprite byte, the most significant first, and note a collision (R111). -/
def drawByte (cx : Byte) (r : Fin 32) (sprite : Byte) (acc : Screen × Bool) : Screen × Bool :=
  (List.range 8).foldl (drawBit cx r sprite) acc

/-- Draw `todo` sprite bytes from byte `b` on, each read just before it is drawn (R79), and write the collision once at the
end (R112). A failed read ends the instruction with the bytes before it drawn and `V[0xF]` not written (R113). -/
def drawRows (cx cy : Byte) (todo b : Nat) (hit : Bool) (s : State) : Outcome :=
  match todo with
  | 0 => .next (s.writeFlag (collisionFlag hit))
  | todo + 1 => withByte s (s.indexAddress b) fun sprite =>
      let drawn := drawByte cx (spriteRow cy b) sprite (s.screen, hit)
      drawRows cx cy todo (b + 1) drawn.2 (s.writeScreen drawn.1)

/-- `Dxyn` (R111): column from `V[x]`, row from `V[y]`, both read before anything is written (decision D7; log 9). -/
def execDrw (x y : Reg) (n : Nat) (s : State) : Outcome := drawRows (s.readV x) (s.readV y) n 0 false s

end Sys2Proof.Machine
end

