-- ==== Sys2Proof/Machine/IndexMemory.lean ====
section
/-! DEFINITION. The address register and the memory transfers (45_index_memory.md). -/

namespace Sys2Proof.Machine

/-- `Annn` (R160). -/
def execLdI (addr : Word) (s : State) : Outcome := .next (s.writeI addr)

/-- `Fx1E` (R161): no flag, even where the sum wraps. -/
def execAddI (x : Reg) (s : State) : Outcome := .next (s.writeI (indexSum s.i (s.readV x)))

/-- `Fx29` (R162). -/
def execLdF (x : Reg) (s : State) : Outcome := .next (s.writeI (glyphAddress (s.readV x)))

/-- `Fx33` (R163). -/
def execLdB (x : Reg) (s : State) : Outcome := storeBytes (s.digitStores (s.readV x)) s

/-- `Fx55` (R164): `I` is unchanged (decision D19; log 10). -/
def execLdMemVx (x : Reg) (s : State) : Outcome := storeBytes (s.blockStores x) s

/-- `Fx65` (R165): `I` is unchanged (decision D19; log 10). -/
def execLdVxMem (x : Reg) (s : State) : Outcome := loadRegs (regsUpTo x) s

end Sys2Proof.Machine
end

