-- ==== Sys2Proof/Machine/Skip.lean ====
section
/-! DEFINITION. The conditional skips (43_skip.md): each is its condition and the one effect of R129. -/

namespace Sys2Proof.Machine

/-- `3xkk` (R130). -/
def execSeImm (x : Reg) (kk : Byte) (s : State) : Outcome := .next (skipIf (s.readV x == kk) s)

/-- `4xkk` (R131). -/
def execSneImm (x : Reg) (kk : Byte) (s : State) : Outcome := .next (skipIf (s.readV x != kk) s)

/-- `5xy0` (R132). -/
def execSeReg (x y : Reg) (s : State) : Outcome := .next (skipIf (s.readV x == s.readV y) s)

/-- `9xy0` (R133). -/
def execSneReg (x y : Reg) (s : State) : Outcome := .next (skipIf (s.readV x != s.readV y) s)

/-- `Ex9E` (R134). -/
def execSkp (x : Reg) (s : State) : Outcome := .next (skipIf (s.keyPressed (keyOf (s.readV x))) s)

/-- `ExA1` (R135). -/
def execSknp (x : Reg) (s : State) : Outcome := .next (skipIf (!s.keyPressed (keyOf (s.readV x))) s)

end Sys2Proof.Machine
end

