-- ==== Sys2Proof/Machine/TimerInput.lean ====
section
/-! DEFINITION. The timer moves and the key wait (46_timer_input.md). -/

namespace Sys2Proof.Machine

/-- `Fx07` (R170). -/
def execLdVxDt (x : Reg) (s : State) : Outcome := .next (s.writeV x s.dt)

/-- `Fx0A` (R171): arms the wait latch and completes; the register is written by the key event that resolves the wait
(R194). -/
def execLdVxK (x : Reg) (s : State) : Outcome := .next (s.armWait x)

/-- `Fx15` (R172). -/
def execLdDtVx (x : Reg) (s : State) : Outcome := .next (s.writeDt (s.readV x))

/-- `Fx18` (R173). -/
def execLdStVx (x : Reg) (s : State) : Outcome := .next (s.writeSt (s.readV x))

end Sys2Proof.Machine
end

