-- ==== Sys2Proof/Machine/Fetch.lean ====
section
/-! DEFINITION. What a tick does around an instruction (40_cycle.md): the fetch, the advance, the word that is no
instruction; and how a word is put where the next tick fetches it. -/

namespace Sys2Proof.Machine

/-- The fetch: the byte at `PC`, then the byte at `PC + 1`, not wrapped (R96). No read changes the state. -/
def State.fetchWord (s : State) : Except AccessError Word :=
  match s.busRead s.pc.toNat with
  | .error e => .error e
  | .ok hi =>
    match s.busRead (s.pc.toNat + 1) with
    | .error e => .error e
    | .ok lo => .ok (wordOfBytes hi lo)

/-- The advance, before decode (R98). -/
def State.advance (s : State) : State := s.pcPlusTwo

/-- A fetched word that is no instruction: `UnknownOpcode(w, pc0)`, with `PC` advanced and nothing else changed (R103). -/
def unknownWord (w : Word) (s : State) : Outcome := .fault (.unknownOpcode w s.pc s.advance)

/-- Decode a fetched word and execute it on the advanced state (R98 to R100, R103). -/
def runWord (w : Word) (s : State) : Outcome :=
  match decodeWord w with
  | some i => exec i s.advance
  | none => unknownWord w s

/-- A tick in the Running state (R106). A failed fetch leaves the state as it was (R96). -/
def tickRunning (s : State) : Outcome :=
  match s.fetchWord with
  | .ok w => runWord w s
  | .error e => raise e s

/-- A tick: nothing while Halted (R101), else one instruction (R100). -/
def tickOnce (s : State) : Outcome :=
  match s.wait.active with
  | true => .next s
  | false => tickRunning s

/-! ### Putting a word where the next tick fetches it -/

/-- Make a readable global address read as `b`, in the device it routes to. -/
def State.placeByte (s : State) (a : Nat) (b : Byte) : State :=
  if s.canRead a then
    match route s.readable a with
    | some (.memory, l) => { s with mem := s.mem.setByte l b }
    | some (.screen, l) => s.writeScreen (s.screen.xorByte l (s.screen.byteAt l ^^^ b))
    | none => s
  else s

/-- Place a word at `PC` and `PC + 1`, as a fetch reads it (R49, R96). -/
def State.placeWord (s : State) (w : Word) : State :=
  (s.placeByte s.pc.toNat (hiByte w)).placeByte (s.pc.toNat + 1) (loByte w)

/-- The state with `PC` at the program's load address (R220) and memory readable there under the default map (R62): where
a word is placed if `PC` names no two bytes that can be placed. -/
def State.relocated (s : State) : State := { s with pc := 0x200, readable := [⟨.memory, 0, s.mem.size⟩] }

/-- The state in which the next tick fetches `w`: Running, with the word at `PC`, or at the load address where the bus map
leaves no place for it at `PC`. -/
def State.withProgramWord (s : State) (w : Word) : State :=
  let running : State := { s with wait := ⟨s.wait.target, false⟩ }
  let placed := running.placeWord w
  match placed.fetchWord with
  | .ok u => if u = w then placed else running.relocated.placeWord w
  | .error _ => running.relocated.placeWord w

end Sys2Proof.Machine
end

