-- ==== Sys2Proof/Machine/Step.lean ====
section
/-! DEFINITION. One `tick` (40_cycle.md R106). -/

namespace Sys2Proof.Machine

/-- `tick()` (R106). -/
def step (s : State) : Host.Outcome State Fault Refusal := tickOnce s

/-- The state whose next tick runs the opcode `w`, numbered as the opcode table numbers it (log 12). -/
def State.withFetchWord (s : State) (nbits w : Nat) : State :=
  s.withProgramWord (BitVec.ofNat 16 (w % 2 ^ nbits))

end Sys2Proof.Machine
end

