-- ==== Sys2Proof/Machine/HostOps.lean ====
section
/-! DEFINITION. Every operation the host performs on the block between ticks (60_exceptions.md R201), each run to
completion (20_memory.md R74), and the construction of an instance (70_reset_and_hazards.md R221). The rest of the host
is outside the block. -/

namespace Sys2Proof.Machine

/-- A register as the host's accessors name it (R39). -/
inductive HostReg where
  | v (index : Nat)
  | i
  | pc
  | sp
  | dt
  | st
  deriving DecidableEq, Repr

/-- A host operation (R201). -/
inductive HostCall where
  /-- `tick()` (R106). -/
  | tick
  /-- `tickTimers()` (R198). -/
  | tickTimers
  /-- `setKeyPressed(k, p)` (R193). -/
  | setKeyPressed (k : Nat) (p : Bool)
  /-- `isKeyPressed(k)` (R192). -/
  | isKeyPressed (k : Nat)
  /-- `hasExecutionHalted()`, and `isWaiting()`, the same query (R196). -/
  | hasExecutionHalted
  /-- `waitForKeyPress(t)` (R195). -/
  | waitForKeyPress (t : Nat)
  /-- A register accessor's read (R39). -/
  | readReg (r : HostReg)
  /-- A register accessor's write (R39). -/
  | writeReg (r : HostReg) (value : Nat)
  /-- `getPixel(r, c)` (R53). -/
  | getPixel (r c : Nat)
  /-- `setPixel(r, c, lit)` (R53). -/
  | setPixel (r c : Nat) (lit : Bool)
  /-- `clear()` (R55). -/
  | clear
  /-- A device's `read` at a local address (R42, R57). -/
  | deviceRead (dev : BusDevice) (a : Nat)
  /-- A device's `write` at a local address (R43, R56). -/
  | deviceWrite (dev : BusDevice) (a : Nat) (b : Byte)
  /-- `Bus.read(a)` (R63). -/
  | busRead (a : Nat)
  /-- `Bus.write(a, b)` (R64). -/
  | busWrite (a : Nat) (b : Byte)
  /-- `registerReadable(dev, lower, upper)` (R60). -/
  | registerReadable (range : Registration)
  /-- `registerWritable(dev, lower, upper)` (R60). -/
  | registerWritable (range : Registration)
  /-- The program load's result: the image's bytes from `0x200` on (R223). -/
  | loadProgram (image : List Byte)
  deriving DecidableEq, Repr

/-- What an operation gives back to the host beside the state. -/
inductive Reply where
  | done
  | bit (b : Bool)
  | number (n : Nat)
  deriving DecidableEq, Repr

/-- What a host operation answers: the state after it and its reply, an error, or a refusal. -/
abbrev HostOutcome := Host.Outcome (State × Reply) Fault Refusal

/-- An operation that gives nothing back. -/
def replyDone (o : Outcome) : HostOutcome :=
  match o with
  | .next s => .next (s, .done)
  | .fault f => .fault f
  | .refused r => .refused r

/-! ### Timers and keys -/

/-- One step toward 0 (R198, decision D29). -/
def countDown (b : Byte) : Byte := if b = 0 then 0 else b - 1

/-- `tickTimers()` (R198). -/
def tickTimers (s : State) : State := { s with dt := countDown s.dt, st := countDown s.st }

/-- The effect of a key event on a pending wait: a press edge writes the key's number to the waiting register and ends
the wait (R193, R194). -/
def resolveWait (k : Fin 16) (edge : Bool) (s : State) : State :=
  if s.wait.active && edge then
    { (s.writeV s.wait.target (BitVec.ofNat 8 k.val)) with wait := ⟨s.wait.target, false⟩ }
  else s

/-- `setKeyPressed(k, p)` for a key of the device (R193). -/
def pressKey (k : Fin 16) (p : Bool) (s : State) : State :=
  resolveWait k (p && !s.keyPressed k) { s with keys := s.keys.set k p }

/-- `setKeyPressed(k, p)` (R193, decision D25). -/
def setKeyPressed (k : Nat) (p : Bool) (s : State) : Outcome :=
  if h : k < 16 then .next (pressKey ⟨k, h⟩ p s) else .fault (.outOfRange (.key k) s)

/-- `isKeyPressed(k)` (R36, R192). -/
def isKeyPressed (k : Nat) (s : State) : HostOutcome :=
  if h : k < 16 then .next (s, .bit (s.keyPressed ⟨k, h⟩)) else .fault (.outOfRange (.key k) s)

/-- `waitForKeyPress(t)` (R195): a pending target is overwritten. -/
def waitForKeyPress (t : Nat) (s : State) : Outcome :=
  if h : t < 16 then .next (s.armWait ⟨t, h⟩) else .fault (.invalidRegisterIndex t s)

/-! ### Register accessors (R39) -/

/-- A register accessor's read. -/
def readReg (r : HostReg) (s : State) : HostOutcome :=
  match r with
  | .v k => if h : k < 16 then .next (s, .number (s.readV ⟨k, h⟩).toNat) else .fault (.invalidRegisterIndex k s)
  | .i => .next (s, .number s.i.toNat)
  | .pc => .next (s, .number s.pc.toNat)
  | .sp => .next (s, .number s.sp.toNat)
  | .dt => .next (s, .number s.dt.toNat)
  | .st => .next (s, .number s.st.toNat)

/-- A write of a value that must fit the register's width: a wider one is refused, not reduced (R39, decision D32). -/
def writeFitting (width value : Nat) (write : BitVec width → State) : Outcome :=
  if value < 2 ^ width then .next (write (BitVec.ofNat width value)) else .refused (.valueTooWide value)

/-- A register accessor's write. DESIGN CHOICE (log 13): the index is checked before the value. -/
def writeReg (r : HostReg) (value : Nat) (s : State) : Outcome :=
  match r with
  | .v k => if h : k < 16 then writeFitting 8 value (s.writeV ⟨k, h⟩) else .fault (.invalidRegisterIndex k s)
  | .i => writeFitting 16 value s.writeI
  | .pc => writeFitting 16 value s.writePc
  | .sp => writeFitting 16 value s.writeSp
  | .dt => writeFitting 8 value s.writeDt
  | .st => writeFitting 8 value s.writeSt

/-! ### Screen and byte accesses -/

/-- `getPixel(r, c)` (R53, decision D25). -/
def hostGetPixel (r c : Nat) (s : State) : HostOutcome :=
  if h : r < 32 ∧ c < 64 then .next (s, .bit (s.screen.getPixel ⟨r, h.1⟩ ⟨c, h.2⟩))
  else .fault (.outOfRange (.pixel r c) s)

/-- `setPixel(r, c, lit)` (R53, decision D25). -/
def hostSetPixel (r c : Nat) (lit : Bool) (s : State) : Outcome :=
  if h : r < 32 ∧ c < 64 then .next (s.writeScreen (s.screen.setPixel ⟨r, h.1⟩ ⟨c, h.2⟩ lit))
  else .fault (.outOfRange (.pixel r c) s)

/-- A host's byte read: the byte, or the access's error (R185). -/
def replyByte (b : Except AccessError Byte) (s : State) : HostOutcome :=
  match b with
  | .ok b => .next (s, .number b.toNat)
  | .error e => .fault (e.toFault s)

/-- A host's byte write: the state after it, or the access's error (R185). -/
def replyWritten (t : Except AccessError State) (s : State) : Outcome :=
  match t with
  | .ok t => .next t
  | .error e => raise e s

/-! ### Bus registration (R60, R61) -/

/-- The bus device of a registration: the Input Device has none (R59). -/
def Device.toBus (d : Device) : Option BusDevice :=
  match d with
  | .memory => some .memory
  | .screen => some .screen
  | .input => none

/-- `registerReadable` and `registerWritable` (R60): the entry goes to the end of its registry, unless it conflicts with one
already there (R61). An inverted range and the Input Device are refused (decisions D26, D21). DESIGN CHOICE (log 26): the
range is tested first, then the device, then the conflict, so a registration that is both refused and in conflict is refused. -/
def register (dir : Direction) (range : Registration) (s : State) : Outcome :=
  if range.upper < range.lower then .refused (.invertedRange range.lower range.upper)
  else
    match Device.toBus range.dev with
    | none => .refused .inputDeviceOnBus
    | some dev =>
      let entry : BusEntry := ⟨dev, range.lower, range.upper⟩
      match dir with
      | .read =>
        if s.readable.any (·.conflicts entry) then .fault (.rangeConflict .read range s)
        else .next { s with readable := s.readable ++ [entry] }
      | .write =>
        if s.writable.any (·.conflicts entry) then .fault (.rangeConflict .write range s)
        else .next { s with writable := s.writable ++ [entry] }

/-! ### Program load (R223) -/

/-- Copy bytes to `M[a]` and onwards; the first that does not fit ends the copy with the bytes before it in place (R223,
decision D30). -/
def loadBytesAt (image : List Byte) (a : Nat) (s : State) : Outcome :=
  match image with
  | [] => .next s
  | b :: rest =>
    match s.deviceWrite .memory a b with
    | .ok t => loadBytesAt rest (a + 1) t
    | .error e => raise e s

/-- The result of loading a program image (R223). -/
def loadProgram (image : List Byte) (s : State) : Outcome := loadBytesAt image 0x200 s

/-! ### All of them -/

/-- Perform a host operation (R201). -/
def hostCall (c : HostCall) (s : State) : HostOutcome :=
  match c with
  | .tick => replyDone (step s)
  | .tickTimers => .next (tickTimers s, .done)
  | .setKeyPressed k p => replyDone (setKeyPressed k p s)
  | .isKeyPressed k => isKeyPressed k s
  | .hasExecutionHalted => .next (s, .bit s.wait.active)
  | .waitForKeyPress t => replyDone (waitForKeyPress t s)
  | .readReg r => readReg r s
  | .writeReg r value => replyDone (writeReg r value s)
  | .getPixel r c => hostGetPixel r c s
  | .setPixel r c lit => replyDone (hostSetPixel r c lit s)
  | .clear => .next (s.writeScreen s.screen.clear, .done)
  | .deviceRead dev a => replyByte (s.deviceRead dev a) s
  | .deviceWrite dev a b => replyDone (replyWritten (s.deviceWrite dev a b) s)
  | .busRead a => replyByte (s.busRead a) s
  | .busWrite a b => replyDone (replyWritten (s.busWrite a b) s)
  | .registerReadable range => replyDone (register .read range s)
  | .registerWritable range => replyDone (register .write range s)
  | .loadProgram image => replyDone (loadProgram image s)

/-- The state a host operation leaves: after an error, what the error left (R186); after a refusal, the state as it was,
since there is no such run. -/
def afterCall (c : HostCall) (s : State) : State :=
  match hostCall c s with
  | .next (t, _) => t
  | .fault f => f.after
  | .refused _ => s

/-- A run of the block: host operations in the order the host chose, which is free (R202, R233). It ends at its first
error (R109, R188). -/
def runCalls (calls : List HostCall) (s : State) : Outcome :=
  match calls with
  | [] => .next s
  | c :: rest =>
    match hostCall c s with
    | .next (t, _) => runCalls rest t
    | .fault f => .fault f
    | .refused r => .refused r

/-- The state after host operations by a host that goes on after errors, which is its liberty (R188, R202). -/
def afterCalls (calls : List HostCall) (s : State) : State :=
  match calls with
  | [] => s
  | c :: rest => afterCalls rest (afterCall c s)

/-! ### Construction (R221) -/

/-- Register ranges one after another. -/
def registerAll (dir : Direction) (ranges : List Registration) (s : State) : Outcome :=
  match ranges with
  | [] => .next s
  | range :: rest => andThen (register dir range s) (registerAll dir rest)

/-- Put bytes into memory from an address on, whatever its capacity. -/
def Memory.setBytes (m : Memory) (a : Nat) (bytes : List Byte) : Memory :=
  match bytes with
  | [] => m
  | b :: rest => (m.setByte a b).setBytes (a + 1) rest

/-- Construct an instance: R40's reset values with the instance's capacity (R10, decision D1), font (R222), stack pointer
(R25) and bus map (R62), whose entries are registered one after another. DESIGN CHOICE (log 27): the capacity is tested first, then
all readable entries are registered, then the writable ones, and the first refusal or error is the answer, an error with the
instance as far as it was built. -/
def State.construct (c : Config) : Outcome :=
  if c.memSize < 4096 ∨ 65536 < c.memSize then .refused (.memSizeOutOfBounds c.memSize)
  else
    let blank : State := { State.reset with
      sp := c.spReset
      mem := (Memory.mk c.memSize []).setBytes 0 c.font.toList
      readable := []
      writable := [] }
    andThen (registerAll .read c.readable blank) (registerAll .write c.writable)

end Sys2Proof.Machine
end

