-- ==== Sys2Proof/Safety.lean ====
section
/-! DEFINITION. The terms the statements use: what a valid state is, what a step leaves unchanged, which bytes a list of
stores leaves, which pixels a sprite byte lights, when a run ends. -/

namespace Sys2Proof.Machine

/-! ### Valid states -/

/-- A registry as registrations build it: no inverted range (R60), and no two entries conflict (R35, R61). -/
abbrev registryValid (es : List BusEntry) : Prop :=
  (∀ e ∈ es, e.lower ≤ e.upper) ∧ es.Pairwise fun e f => e.conflicts f = false

/-- The invariant of the block: memory has its canonical form and a capacity the spec allows (R10), and the registries are
as registrations build them. The registers' ranges (R38) are their types. -/
abbrev State.Valid (s : State) : Prop :=
  s.mem.wf ∧ 4096 ≤ s.mem.size ∧ s.mem.size ≤ 65536 ∧ registryValid s.readable ∧ registryValid s.writable

/-- The interpreter is Halted exactly while the wait latch is active (R34). -/
abbrev State.halted (s : State) : Prop := s.wait.active = true

/-! ### Frames -/

/-- The parts of the state beside the general registers. -/
inductive Component where
  | pc
  | i
  | sp
  | dt
  | st
  | mem
  | screen
  | keys
  | wait
  | readable
  | writable
  | draws
  deriving DecidableEq, Repr

/-- A part of the state is the same in two states: a device by every byte or pixel of it. -/
def Component.same (c : Component) (s t : State) : Prop :=
  match c with
  | .pc => t.pc = s.pc
  | .i => t.i = s.i
  | .sp => t.sp = s.sp
  | .dt => t.dt = s.dt
  | .st => t.st = s.st
  | .mem => t.mem.size = s.mem.size ∧ ∀ a, t.mem.byteAt a = s.mem.byteAt a
  | .screen => ∀ r c, t.screen.getPixel r c = s.screen.getPixel r c
  | .keys => ∀ k, t.keyPressed k = s.keyPressed k
  | .wait => t.wait = s.wait
  | .readable => t.readable = s.readable
  | .writable => t.writable = s.writable
  | .draws => t.draws = s.draws

/-- Nothing but the general registers of `regs` and the parts of `parts` differs between two states. -/
def OnlyChanges (regs : List Reg) (parts : List Component) (s t : State) : Prop :=
  (∀ r, r ∉ regs → t.readV r = s.readV r) ∧ ∀ c, c ∉ parts → c.same s t

/-! ### Outcomes -/

/-- The error with another state after it. -/
def Fault.withAfter (f : Fault) (t : State) : Fault :=
  match f with
  | .addressUnmapped dir a _ => .addressUnmapped dir a t
  | .outOfRange info _ => .outOfRange info t
  | .rangeConflict registry range _ => .rangeConflict registry range t
  | .invalidRegisterIndex k _ => .invalidRegisterIndex k t
  | .unknownOpcode w pc0 _ => .unknownOpcode w pc0 t

/-- The same answer, with `g` applied to the state it leaves. -/
def onState (g : State → State) (o : Outcome) : Outcome :=
  match o with
  | .next t => .next (g t)
  | .fault f => .fault (f.withAfter (g f.after))
  | .refused r => .refused r

/-- The error of a failed byte access in a direction (R63 to R65). -/
def Fault.isAccess (f : Fault) (dir : Direction) : Prop :=
  (∃ a t, f = .addressUnmapped dir a t) ∨ ∃ dev a t, f = .outOfRange (.address dev a) t

/-! ### Stores -/

/-- The byte `M[m]` holds after stores through the writable registry, in order: the last that is routed to it stays. -/
def memoryAfter (writable : List BusEntry) (stores : List (Nat × Byte)) (m : Nat) (old : Byte) : Byte :=
  stores.foldl (fun b p => if route writable p.1 = some (.memory, m) then p.2 else b) old

/-- The byte `S[k]` holds after stores through the writable registry: each that is routed to it is XORed in (R56). -/
def screenAfter (writable : List BusEntry) (stores : List (Nat × Byte)) (k : Nat) (old : Byte) : Byte :=
  stores.foldl (fun b p => if route writable p.1 = some (.screen, k) then b ^^^ p.2 else b) old

/-- `t`'s memory and screen are `s`'s after the stores, and every other address reads as before: whatever global address is
routed to a place no store is routed to. -/
def Stored (stores : List (Nat × Byte)) (s t : State) : Prop :=
  t.mem.size = s.mem.size ∧
  (∀ m, t.mem.byteAt m = memoryAfter s.writable stores m (s.mem.byteAt m)) ∧
  (∀ k, k < 256 → t.screen.byteAt k = screenAfter s.writable stores k (s.screen.byteAt k)) ∧
  ∀ a, (∀ p ∈ stores, route s.readable a ≠ route s.writable p.1) → t.busRead a = s.busRead a

/-- Every store of the list is to an address that can be written. -/
abbrev AllWritable (stores : List (Nat × Byte)) (s : State) : Prop := ∀ p ∈ stores, s.canWrite p.1 = true

/-! ### Sprites -/

/-- Sprite byte `b`, drawn at `(V[x], V[y]) = (cx, cy)`, has a 1-bit on the pixel `(r, c)` (R111): one of its bits `7 - j` is
1, `r = (cy + b) mod 32` and `c = (cx + j) mod 64`. -/
def spriteLights (cx cy : Byte) (b : Nat) (sprite : Byte) (r : Fin 32) (c : Fin 64) : Prop :=
  r.val = (cy.toNat + b) % 32 ∧ ∃ j, j < 8 ∧ c.val = (cx.toNat + j) % 64 ∧ sprite.getLsbD (7 - j) = true

/-- `q` is `p` with one sprite byte drawn: the pixels its 1-bits fall on are turned over, and no others (R111). -/
def DrawnByte (cx cy : Byte) (b : Nat) (sprite : Byte) (p q : Screen) : Prop :=
  ∀ r c, (spriteLights cx cy b sprite r c → q.getPixel r c = !p.getPixel r c) ∧
    (¬ spriteLights cx cy b sprite r c → q.getPixel r c = p.getPixel r c)

/-- A 1-bit of the sprite byte falls on a lit pixel (R112). -/
def CollidesByte (cx cy : Byte) (b : Nat) (sprite : Byte) (p : Screen) : Prop :=
  ∃ r c, spriteLights cx cy b sprite r c ∧ p.getPixel r c = true

/-- The first `k` bytes of a sprite, drawn from `s` on: `screens b` is the screen before byte `b` is drawn, and `bytes b` is
what the bus reads at `I + b` just then (R79, R111). -/
def DrawnRows (cx cy : Byte) (k : Nat) (s : State) (screens : Nat → Screen) (bytes : Nat → Byte) : Prop :=
  screens 0 = s.screen ∧ ∀ b, b < k →
    (s.writeScreen (screens b)).busRead (s.indexAddress b) = .ok (bytes b) ∧
    DrawnByte cx cy b (bytes b) (screens b) (screens (b + 1))

/-- The `n` sprite bytes of a `Dxyn` are bytes of memory (as they are under the default map wherever they can be read). -/
def SpriteInMemory (n : Nat) (s : State) : Prop :=
  ∀ b, b < n → ∃ m, route s.readable (s.indexAddress b) = some (.memory, m) ∧ m < s.mem.size

/-- A 1-bit of some byte of the sprite falls on the pixel, the sprite's bytes being `bytes b`. -/
def SpriteCovers (cx cy : Byte) (n : Nat) (bytes : Nat → Byte) (r : Fin 32) (c : Fin 64) : Prop :=
  ∃ b, b < n ∧ spriteLights cx cy b (bytes b) r c

/-! ### The opcode map by nibbles -/

/-- The four bits of a register field, `xxxx` or `yyyy` in R82's patterns. -/
def regBits (x : Reg) : BitVec 4 := BitVec.ofNat 4 x.val

/-- What R86's patterns make of the nibbles of a word, written from its pattern column: `op` in bits 15 to 12, `x` in 11 to 8,
`y` in 7 to 4, `n` in 3 to 0 (R81). -/
def patternInstr (op x y n : Fin 16) : Option Instr :=
  let kk : Byte := BitVec.ofNat 8 (y.val * 16 + n.val)
  let addr : Word := BitVec.ofNat 16 (x.val * 256 + y.val * 16 + n.val)
  match op.val, y.val, n.val with
  | 0x0, 0xE, 0x0 => if x = 0 then some .cls else none
  | 0x0, 0xE, 0xE => if x = 0 then some .ret else none
  | 0x1, _, _ => some (.jp addr)
  | 0x2, _, _ => some (.call addr)
  | 0x3, _, _ => some (.seImm x kk)
  | 0x4, _, _ => some (.sneImm x kk)
  | 0x5, _, 0x0 => some (.seReg x y)
  | 0x6, _, _ => some (.ldImm x kk)
  | 0x7, _, _ => some (.addImm x kk)
  | 0x8, _, 0x0 => some (.ldReg x y)
  | 0x8, _, 0x1 => some (.orReg x y)
  | 0x8, _, 0x2 => some (.andReg x y)
  | 0x8, _, 0x3 => some (.xorReg x y)
  | 0x8, _, 0x4 => some (.addReg x y)
  | 0x8, _, 0x5 => some (.sub x y)
  | 0x8, _, 0x6 => some (.shr x y)
  | 0x8, _, 0x7 => some (.subn x y)
  | 0x8, _, 0xE => some (.shl x y)
  | 0x9, _, 0x0 => some (.sneReg x y)
  | 0xA, _, _ => some (.ldI addr)
  | 0xB, _, _ => some (.jpV0 addr)
  | 0xC, _, _ => some (.rnd x kk)
  | 0xD, _, _ => some (.drw x y n.val)
  | 0xE, 0x9, 0xE => some (.skp x)
  | 0xE, 0xA, 0x1 => some (.sknp x)
  | 0xF, 0x0, 0x7 => some (.ldVxDt x)
  | 0xF, 0x0, 0xA => some (.ldVxK x)
  | 0xF, 0x1, 0x5 => some (.ldDtVx x)
  | 0xF, 0x1, 0x8 => some (.ldStVx x)
  | 0xF, 0x1, 0xE => some (.addI x)
  | 0xF, 0x2, 0x9 => some (.ldF x)
  | 0xF, 0x3, 0x3 => some (.ldB x)
  | 0xF, 0x5, 0x5 => some (.ldMemVx x)
  | 0xF, 0x6, 0x5 => some (.ldVxMem x)
  | _, _, _ => none

/-! ### Runs (R109) -/

/-- The instruction the next tick executes, if it executes one. -/
def State.nextInstr (s : State) : Option Instr :=
  match s.wait.active, s.fetchWord with
  | false, .ok w => decodeWord w
  | _, _ => none

/-- The next tick executes a jump to its own address, after which the state repeats but for the timers (R109). -/
def State.selfJump (s : State) : Prop := s.nextInstr = some (.jp s.pc)

/-- A tick is safe if it ends without an error (R104). -/
def State.tickSafe (s : State) : Prop := ∃ t, step s = .next t

/-- A run ends where a tick answers an error or executes a self-jump (R109; the third end, a number of ticks the host
chose, is the length of the list of calls). -/
def State.runEnds (s : State) : Prop := ¬ s.tickSafe ∨ s.selfJump

end Sys2Proof.Machine
end

