-- ==== Sys2Proof/Certificates/Slice0/Obligations.lean ====
section
/-! DEFINITION. The statements about ChipM8-Core, each from the rules of spec/ its docstring names. -/

open Sys2Proof Sys2Proof.Machine

/-! ### Encoding -/

/-- R86, on a few words written out from its patterns: each decodes to its row's instruction, and `0nnn`, `5xy1` and `E09F`
to none (R85, R91). -/
def Obligations.SampleOpcodesDecodeAsTheMapSays : Prop :=
  decodeTableWord 16 0x00E0 = some .cls ∧
  decodeTableWord 16 0x2ABC = some (.call 0xABC) ∧
  decodeTableWord 16 0x3A42 = some (.seImm 0xA 0x42) ∧
  decodeTableWord 16 0x812E = some (.shl 1 2) ∧
  decodeTableWord 16 0xB123 = some (.jpV0 0x123) ∧
  decodeTableWord 16 0xD12F = some (.drw 1 2 15) ∧
  decodeTableWord 16 0xF365 = some (.ldVxMem 3) ∧
  decodeTableWord 16 0x0123 = none ∧ decodeTableWord 16 0x5121 = none ∧ decodeTableWord 16 0xE09F = none

/-- R81, R82: no bit of an encoding is dropped. The bytes of a well-formed instruction decode to it, whatever follows. -/
def Obligations.DecodeOfEncodeIsTheInstruction : Prop :=
  ∀ (i : Instr) (rest : List Byte), i.wellFormed = true → decode (encodeBytes i ++ rest) = .ok (i, rest)

/-- R85: no instruction has a don't-care bit, so a word that decodes is its instruction's one opcode. -/
def Obligations.EncodeOfDecodeIsTheWord : Prop :=
  ∀ (w : Word) (i : Instr), decodeWord w = some i → encode i = w ∧ i.wellFormed = true

/-- R86 by its pattern column: the decoder, which goes by mask and match, reads from every word of four nibbles what the
patterns make of them, and refuses every other word. -/
def Obligations.MaskAndMatchAgreeWithThePatterns : Prop :=
  ∀ op x y n : Fin 16,
    decodeWord (BitVec.ofNat 16 (op.val * 0x1000 + x.val * 0x100 + y.val * 0x10 + n.val)) = patternInstr op x y n

/-- R87: no word is covered by two rows of the opcode map. -/
def Obligations.NoWordIsCoveredByTwoRows : Prop :=
  ∀ (w : Word) (j k : Nat) (hj : j < decodeTable.length) (hk : k < decodeTable.length),
    decodeTable[j].covers w = true → decodeTable[k].covers w = true → j = k

/-! ### The tick -/

/-- R98, R100, with R49's byte order: a Running tick whose two bytes form a decoded word is that instruction's meaning on
the state with `PC` advanced and nothing else changed. -/
def Obligations.StepRunsTheDecodedInstruction : Prop :=
  ∀ (s : State) (hi lo : Byte) (w : Word) (i : Instr), s.wait.active = false →
    s.busRead s.pc.toNat = .ok hi → s.busRead (s.pc.toNat + 1) = .ok lo →
    w.toNat = hi.toNat * 256 + lo.toNat → decodeWord w = some i →
    step s = exec i { s with pc := BitVec.ofNat 16 ((s.pc.toNat + 2) % s.mem.size) }

/-- R101 (the spec's decision D12): a tick while Halted changes nothing and ends without an error. -/
def Obligations.HaltedTickDoesNothing : Prop :=
  ∀ s : State, s.halted → step s = .next s

/-- R96 (the spec's decision D15 for the unwrapped `PC + 1`): a failed fetch ends the tick with the read's error, the first
byte's before the second's, and leaves the state as it was. -/
def Obligations.FailedFetchLeavesTheState : Prop :=
  ∀ (s : State) (e : AccessError), s.wait.active = false →
    (s.busRead s.pc.toNat = .error e → step s = .fault (e.toFault s)) ∧
    ∀ hi, s.busRead s.pc.toNat = .ok hi → s.busRead (s.pc.toNat + 1) = .error e → step s = .fault (e.toFault s)

/-- R103 (the spec's decision D5): a fetched word that no row covers raises `UnknownOpcode(w, pc0)`, with `PC` advanced and
nothing else changed. -/
def Obligations.UnknownWordRaisesUnknownOpcode : Prop :=
  ∀ (s : State) (hi lo : Byte) (w : Word), s.wait.active = false →
    s.busRead s.pc.toNat = .ok hi → s.busRead (s.pc.toNat + 1) = .ok lo →
    w.toNat = hi.toNat * 256 + lo.toNat → (∀ r ∈ decodeTable, w &&& r.mask ≠ r.pattern) →
    step s = .fault (.unknownOpcode w s.pc { s with pc := BitVec.ofNat 16 ((s.pc.toNat + 2) % s.mem.size) })

/-- R104, R201: every tick ends without an error or with one of the errors of codes 1, 2 and 5. -/
def Obligations.TickAnswersOkOrOneOfThreeErrors : Prop :=
  ∀ s : State, (∃ t, step s = .next t) ∨ ∃ f, step s = .fault f ∧ (f.code = 1 ∨ f.code = 2 ∨ f.code = 5)

/-- R181: which instructions can raise what. A failed read ends only `00EE`, `Dxyn` and `Fx65`, a failed write only `2nnn`,
`Fx33` and `Fx55`; every other instruction raises nothing, and none is refused. -/
def Obligations.OnlyTheListedInstructionsCanFail : Prop :=
  ∀ (i : Instr) (s : State),
    (∃ t, exec i s = .next t) ∨
    ∃ f, exec i s = .fault f ∧
      ((f.isAccess .read ∧ (i = .ret ∨ (∃ x y n, i = .drw x y n) ∨ ∃ x, i = .ldVxMem x)) ∨
       (f.isAccess .write ∧ ((∃ addr, i = .call addr) ∨ (∃ x, i = .ldB x) ∨ ∃ x, i = .ldMemVx x)))

/-- R186 (the spec's decision D18): a tick that ends with an error after its fetch leaves `PC` advanced; a failed fetch
leaves the state as it was; neither changes the run state. -/
def Obligations.ErrorLeavesPcAdvancedAfterTheFetch : Prop :=
  ∀ (s : State) (f : Fault), step s = .fault f → f.after.wait = s.wait ∧
    ((∃ w, s.fetchWord = .ok w ∧ f.after.pc = BitVec.ofNat 16 ((s.pc.toNat + 2) % s.mem.size)) ∨
     ((∃ e, s.fetchWord = .error e) ∧ f.after = s))

/-! ### Invariants and whole-machine rules -/

/-- From every valid state, a tick leaves a valid state of the same capacity (R30), whether it ends with an error or without: the
memory keeps its canonical form, and no two entries of a registry conflict (R35). -/
def Obligations.EveryTickKeepsTheStateValid : Prop :=
  ∀ s : State, s.Valid →
    (∀ t, step s = .next t → t.Valid ∧ t.mem.size = s.mem.size) ∧
    ∀ f, step s = .fault f → f.after.Valid ∧ f.after.mem.size = s.mem.size

/-- The state after reset is valid. -/
def Obligations.ResetStateIsValid : Prop := State.reset.Valid

/-- Whatever a host does, in any order and after any errors (R202), the state stays valid. -/
def Obligations.EveryHostScheduleKeepsTheStateValid : Prop :=
  ∀ (calls : List HostCall) (s : State), s.Valid → (afterCalls calls s).Valid

/-- R108: `PC` stays inside the address space over every tick that does not execute `00EE`. -/
def Obligations.PcStaysInsideTheAddressSpace : Prop :=
  ∀ s t : State, s.Valid → s.pc.toNat < s.mem.size → s.nextInstr ≠ some .ret → step s = .next t →
    t.pc.toNat < t.mem.size

/-- R24: `I < 4096` holds over every tick. -/
def Obligations.AddressRegisterStaysBelow4096 : Prop :=
  ∀ s t : State, s.i.toNat < 4096 → step s = .next t → t.i.toNat < 4096

/-- R25: no instruction but `2nnn` and `00EE` reads or writes `SP`: with another `SP` they answer the same and leave it. -/
def Obligations.OnlyCallAndReturnUseTheStackPointer : Prop :=
  ∀ (i : Instr) (s : State) (sp : Word), i ≠ .ret → (∀ addr, i ≠ .call addr) →
    exec i (s.writeSp sp) = onState (·.writeSp sp) (exec i s)

/-- R27, R37: no instruction reads `ST`, and only `Fx18` writes it; no instruction reads the wait latch, and only `Fx0A` writes
it. -/
def Obligations.NoInstructionReadsTheHiddenState : Prop :=
  ∀ (i : Instr) (s : State) (b : Byte) (w : WaitLatch),
    ((∀ x, i ≠ .ldStVx x) → exec i (s.writeSt b) = onState (·.writeSt b) (exec i s)) ∧
    (∀ x, i = .ldStVx x → exec i (s.writeSt b) = exec i s) ∧
    ((∀ x, i ≠ .ldVxK x) → exec i { s with wait := w } = onState (fun t => { t with wait := w }) (exec i s)) ∧
    ∀ x, i = .ldVxK x → exec i { s with wait := w } = exec i s

/-- R24, R25, R26, R27, R30, R32, R35, R95, R107: which instructions write what beside the general registers. None writes a key
state, a registry or the memory's capacity; only `Annn`, `Fx1E` and `Fx29` write `I`; only `2nnn` and `00EE` write `SP`; only `Fx15`
writes `DT` and only `Fx18` writes `ST`; only `Fx0A` halts; only the transfers and the skips write `PC` after the advance. -/
def Obligations.SpecialStateIsWrittenOnlyByItsInstructions : Prop :=
  ∀ (i : Instr) (s t : State), exec i s = .next t →
    t.keys = s.keys ∧ t.readable = s.readable ∧ t.writable = s.writable ∧ t.mem.size = s.mem.size ∧
    (t.i = s.i ∨ (∃ addr, i = .ldI addr) ∨ ∃ x, i = .addI x ∨ i = .ldF x) ∧
    (t.sp = s.sp ∨ i = .ret ∨ ∃ addr, i = .call addr) ∧
    (t.dt = s.dt ∨ ∃ x, i = .ldDtVx x) ∧ (t.st = s.st ∨ ∃ x, i = .ldStVx x) ∧
    (t.wait = s.wait ∨ ∃ x, i = .ldVxK x) ∧
    (t.pc = s.pc ∨ i = .ret ∨ (∃ addr, i = .jp addr ∨ i = .call addr ∨ i = .jpV0 addr) ∨
      (∃ x kk, i = .seImm x kk ∨ i = .sneImm x kk) ∨ (∃ x y, i = .seReg x y ∨ i = .sneReg x y) ∨
      ∃ x, i = .skp x ∨ i = .sknp x)

/-- R194, R206 (the spec's decision D11): of all host operations, only a key's press edge ends a wait. -/
def Obligations.OnlyAPressEdgeEndsAWait : Prop :=
  ∀ (c : HostCall) (s : State), s.halted → ¬ (afterCall c s).halted →
    ∃ k : Fin 16, c = .setKeyPressed k.val true ∧ s.keyPressed k = false

/-! ### Display -/

/-- R55, R110: `00E0`, encoded `0000 0000 1110 0000`, turns every pixel off and changes nothing else. -/
def Obligations.ClearScreenTurnsEveryPixelOff : Prop :=
  encode .cls = 0b0000000011100000 ∧ ∀ s : State, ∃ t, exec .cls s = .next t ∧ (∀ r c, t.screen.getPixel r c = false) ∧ OnlyChanges [] [.screen] s t

/-- R111, R112 (the spec's decisions D7, D8, D9): where every sprite byte can be read, whatever device holds it, `Dxyn`
completes; each byte is read after the bytes before it are drawn (R79), and `V[0xF]` is 1 if some byte fell on a lit pixel,
else 0. -/
def Obligations.DrawTurnsPixelsOverByteByByte : Prop :=
  ∀ (x y : Reg) (n : Nat) (s : State), (∀ b, b < n → s.canRead (s.i.toNat + b) = true) →
    ∃ t screens bytes, exec (.drw x y n) s = .next t ∧ DrawnRows (s.readV x) (s.readV y) n s screens bytes ∧
      t.screen = screens n ∧
      (((∃ b, b < n ∧ CollidesByte (s.readV x) (s.readV y) b (bytes b) (screens b)) ∧ t.readV 0xF = 1) ∨
       ((¬ ∃ b, b < n ∧ CollidesByte (s.readV x) (s.readV y) b (bytes b) (screens b)) ∧ t.readV 0xF = 0)) ∧
      OnlyChanges [0xF] [.screen] s t

/-- R111, R112 for a sprite in memory (the spec's decisions D7, D8): exactly the pixels under a 1-bit are turned over, and
`V[0xF]` says whether one of them was lit. -/
def Obligations.DrawFromMemoryTurnsOverTheCoveredPixels : Prop :=
  ∀ (x y : Reg) (n : Nat) (s : State) (bytes : Nat → Byte), n < 16 → SpriteInMemory n s →
    (∀ b, b < n → s.busRead (s.i.toNat + b) = .ok (bytes b)) →
    ∃ t, exec (.drw x y n) s = .next t ∧
      (∀ r c, (SpriteCovers (s.readV x) (s.readV y) n bytes r c → t.screen.getPixel r c = !s.screen.getPixel r c) ∧
        (¬ SpriteCovers (s.readV x) (s.readV y) n bytes r c → t.screen.getPixel r c = s.screen.getPixel r c)) ∧
      (t.readV 0xF = 0 ∨ t.readV 0xF = 1) ∧
      (t.readV 0xF = 1 ↔
        ∃ r c, SpriteCovers (s.readV x) (s.readV y) n bytes r c ∧ s.screen.getPixel r c = true) ∧
      OnlyChanges [0xF] [.screen] s t

/-- R113 (the spec's decision D20): at the first sprite byte that cannot be read, `Dxyn` ends with the read's error; the
bytes before it are drawn, and nothing else is changed. -/
def Obligations.DrawStopsAtAByteItCannotRead : Prop :=
  ∀ (x y : Reg) (n k : Nat) (s : State), k < n → (∀ b, b < k → s.canRead (s.i.toNat + b) = true) →
    s.canRead (s.i.toNat + k) = false →
    ∃ screens bytes e, DrawnRows (s.readV x) (s.readV y) k s screens bytes ∧
      s.busRead (s.i.toNat + k) = .error e ∧
      exec (.drw x y n) s = .fault (e.toFault { s with screen := screens k })

/-- R114: drawing the same sprite twice restores the screen, and the second draw reports a collision exactly if a 1-bit falls
on a pixel that was off before the first. -/
def Obligations.DrawingTwiceRestoresTheScreen : Prop :=
  ∀ (x y : Reg) (n : Nat) (s t : State) (bytes : Nat → Byte), x ≠ 0xF → y ≠ 0xF → n < 16 → SpriteInMemory n s →
    (∀ b, b < n → s.busRead (s.i.toNat + b) = .ok (bytes b)) → exec (.drw x y n) s = .next t →
    ∃ u, exec (.drw x y n) t = .next u ∧ (∀ r c, u.screen.getPixel r c = s.screen.getPixel r c) ∧
      (u.readV 0xF = 1 ↔
        ∃ r c, SpriteCovers (s.readV x) (s.readV y) n bytes r c ∧ s.screen.getPixel r c = false)

/-! ### Control transfer -/

/-- R50, R124 (the spec's decision D15: the popped value is not reduced): where both bytes of the stack entry can be read,
`00EE` pops `PC`, high byte first, and moves `SP` up by 2. -/
def Obligations.ReturnPopsPcAndMovesSp : Prop :=
  ∀ (s : State) (h l : Byte), s.busRead s.sp.toNat = .ok h → s.busRead (s.sp.toNat + 1) = .ok l →
    ∃ t, exec .ret s = .next t ∧ t.pc.toNat = h.toNat * 256 + l.toNat ∧ t.sp.toNat = (s.sp.toNat + 2) % 65536 ∧
      OnlyChanges [] [.pc, .sp] s t

/-- R124: a failed read of the stack entry ends `00EE` with nothing changed, the high byte's error before the low byte's. -/
def Obligations.ReturnThatCannotReadChangesNothing : Prop :=
  ∀ (s : State) (e : AccessError),
    (s.busRead s.sp.toNat = .error e → exec .ret s = .fault (e.toFault s)) ∧
    ∀ h, s.busRead s.sp.toNat = .ok h → s.busRead (s.sp.toNat + 1) = .error e →
      exec .ret s = .fault (e.toFault s)

/-- R125, R127: `1nnn` sets `PC` to its address, which a well-formed jump has inside the address space; `Bnnn` adds `V[0]`, modulo the
address space. (That the address space is the memory's capacity is the spec's decision D2.) -/
def Obligations.JumpsSetPc : Prop :=
  ∀ (addr : Word) (s : State),
    (∃ t, exec (.jp addr) s = .next t ∧ t.pc = addr ∧ OnlyChanges [] [.pc] s t) ∧
    ((Instr.jp addr).wellFormed = true → s.Valid → addr.toNat < s.mem.size) ∧
    (s.Valid → ∃ t, exec (.jpV0 addr) s = .next t ∧
      t.pc.toNat = (addr.toNat + (s.readV 0).toNat) % s.mem.size ∧ OnlyChanges [] [.pc] s t)

/-- R126, R50 (the spec's decision D16: `SP + 1` is not wrapped): where both bytes of the new entry can be written, `2nnn`
moves `SP` down by 2, stores the advanced `PC` there, high byte first, and jumps. -/
def Obligations.CallPushesTheReturnAddress : Prop :=
  ∀ (addr : Word) (s : State) (a : Nat), s.mem.wf → a = (s.sp.toNat + 65534) % 65536 →
    s.canWrite a = true → s.canWrite (a + 1) = true →
    ∃ t, exec (.call addr) s = .next t ∧ t.pc = addr ∧ t.sp.toNat = a ∧
      Stored [(a, hiByte s.pc), (a + 1, loByte s.pc)] s t ∧ OnlyChanges [] [.pc, .sp, .mem, .screen] s t

/-- R126 (the spec's decision D20): a push that fails ends `2nnn` with `SP` moved, the high byte stored if only the low byte
failed, and `PC` left at the return address. -/
def Obligations.CallThatCannotPushLeavesItsPartialEffects : Prop :=
  ∀ (addr : Word) (s : State) (e : AccessError) (a : Nat), a = (s.sp.toNat + 65534) % 65536 →
    (s.busWrite a (hiByte s.pc) = .error e →
      exec (.call addr) s = .fault (e.toFault { s with sp := BitVec.ofNat 16 a })) ∧
    ∀ t, s.busWrite a (hiByte s.pc) = .ok t → t.busWrite (a + 1) (loByte s.pc) = .error e →
      exec (.call addr) s = .fault (e.toFault { t with sp := BitVec.ofNat 16 a })

/-- R121: a call and then a return come back to the return address, with `SP` as it was, where the entry is in memory under
the default map. -/
def Obligations.CallThenReturnComesBack : Prop :=
  ∀ (addr : Word) (s t : State), s.mem.wf → s.readable = [⟨.memory, 0, s.mem.size⟩] →
    s.writable = [⟨.memory, 0, s.mem.size⟩] → exec (.call addr) s = .next t →
    ∃ u, exec .ret t = .next u ∧ u.pc = s.pc ∧ u.sp = s.sp

/-! ### Skips -/

/-- R129 to R133 (the spec's decision D15 for the modulus): a skip on a register moves `PC` by 2, modulo the address space,
exactly where its condition holds, and changes nothing else. -/
def Obligations.RegisterSkipsMovePcWhereTheConditionHolds : Prop :=
  ∀ (x y : Reg) (kk : Byte) (s : State), s.Valid →
    ∀ p, p ∈ [(Instr.seImm x kk, decide ((s.readV x).toNat = kk.toNat)),
        (Instr.sneImm x kk, decide ((s.readV x).toNat ≠ kk.toNat)),
        (Instr.seReg x y, decide ((s.readV x).toNat = (s.readV y).toNat)),
        (Instr.sneReg x y, decide ((s.readV x).toNat ≠ (s.readV y).toNat))] →
    ∃ t, exec p.1 s = .next t ∧
      t.pc.toNat = (if p.2 then (s.pc.toNat + 2) % s.mem.size else s.pc.toNat) ∧ OnlyChanges [] [.pc] s t

/-- R134, R135 (the spec's decision D15 for the modulus): a skip on a key tests the key the low nibble of `V[x]` selects. -/
def Obligations.KeySkipsTestTheLowNibblesKey : Prop :=
  ∀ (x : Reg) (k : Fin 16) (s : State), s.Valid → (s.readV x).toNat % 16 = k.val →
    (∃ t, exec (.skp x) s = .next t ∧
      t.pc.toNat = (if s.keyPressed k then (s.pc.toNat + 2) % s.mem.size else s.pc.toNat) ∧
      OnlyChanges [] [.pc] s t) ∧
    ∃ t, exec (.sknp x) s = .next t ∧
      t.pc.toNat = (if s.keyPressed k then s.pc.toNat else (s.pc.toNat + 2) % s.mem.size) ∧
      OnlyChanges [] [.pc] s t

/-! ### Loads, arithmetic and logic -/

/-- R140, R142: `6xkk` and `8xy0`, encoded as their patterns say, write one register and nothing else. -/
def Obligations.RegisterLoadsWriteOneRegister : Prop :=
  ∀ (x y : Reg) (kk : Byte) (s : State),
    encode (.ldImm x kk) = 0b0110#4 ++ regBits x ++ kk ∧
    encode (.ldReg x y) = 0b1000#4 ++ regBits x ++ regBits y ++ 0b0000#4 ∧
    (∃ t, exec (.ldImm x kk) s = .next t ∧ t.readV x = kk ∧ OnlyChanges [x] [] s t) ∧
    ∃ t, exec (.ldReg x y) s = .next t ∧ t.readV x = s.readV y ∧ OnlyChanges [x] [] s t

/-- R141: `7xkk`, encoded as its pattern says, adds modulo 256 and writes no flag: `V[0xF]` changes only as the
destination. -/
def Obligations.AddImmediateWrapsWithoutAFlag : Prop :=
  ∀ (x : Reg) (kk : Byte) (s : State),
    encode (.addImm x kk) = 0b0111#4 ++ regBits x ++ kk ∧
    ∃ t, exec (.addImm x kk) s = .next t ∧ (t.readV x).toNat = ((s.readV x).toNat + kk.toNat) % 256 ∧
      OnlyChanges [x] [] s t

/-- R143, R144, R145: `8xy1`, `8xy2` and `8xy3`, encoded as their patterns say, combine bit by bit and write no flag. -/
def Obligations.BitwiseInstructionsWriteNoFlag : Prop :=
  ∀ (x y : Reg) (s : State),
    encode (.orReg x y) = 0b1000#4 ++ regBits x ++ regBits y ++ 0b0001#4 ∧
    encode (.andReg x y) = 0b1000#4 ++ regBits x ++ regBits y ++ 0b0010#4 ∧
    encode (.xorReg x y) = 0b1000#4 ++ regBits x ++ regBits y ++ 0b0011#4 ∧
    (∃ t, exec (.orReg x y) s = .next t ∧ OnlyChanges [x] [] s t ∧
      ∀ j, (t.readV x).getLsbD j = ((s.readV x).getLsbD j || (s.readV y).getLsbD j)) ∧
    (∃ t, exec (.andReg x y) s = .next t ∧ OnlyChanges [x] [] s t ∧
      ∀ j, (t.readV x).getLsbD j = ((s.readV x).getLsbD j && (s.readV y).getLsbD j)) ∧
    ∃ t, exec (.xorReg x y) s = .next t ∧ OnlyChanges [x] [] s t ∧
      ∀ j, (t.readV x).getLsbD j = ((s.readV x).getLsbD j ^^ (s.readV y).getLsbD j)

/-- R147: `8xy4`, encoded as its pattern says, writes the sum modulo 256 and then the carry, which is what remains where
`x` is `0xF`. -/
def Obligations.AddWritesTheSumThenTheCarry : Prop :=
  ∀ (x y : Reg) (s : State),
    encode (.addReg x y) = 0b1000#4 ++ regBits x ++ regBits y ++ 0b0100#4 ∧
    ∃ t, exec (.addReg x y) s = .next t ∧
      (x ≠ 0xF → (t.readV x).toNat = ((s.readV x).toNat + (s.readV y).toNat) % 256) ∧
      (t.readV 0xF).toNat = (if 256 ≤ (s.readV x).toNat + (s.readV y).toNat then 1 else 0) ∧
      OnlyChanges [x, 0xF] [] s t

/-- R148, R150: `8xy5` and `8xy7`, encoded as their patterns say, write the difference modulo 256 and then the NOT-borrow,
which is what remains where `x` is `0xF`. -/
def Obligations.SubtractsWriteTheDifferenceThenNotBorrow : Prop :=
  ∀ (x y : Reg) (s : State),
    encode (.sub x y) = 0b1000#4 ++ regBits x ++ regBits y ++ 0b0101#4 ∧
    encode (.subn x y) = 0b1000#4 ++ regBits x ++ regBits y ++ 0b0111#4 ∧
    (∃ t, exec (.sub x y) s = .next t ∧
      (x ≠ 0xF → ((t.readV x).toNat : Int) = ((s.readV x).toNat - (s.readV y).toNat : Int) % 256) ∧
      (t.readV 0xF).toNat = (if (s.readV y).toNat ≤ (s.readV x).toNat then 1 else 0) ∧
      OnlyChanges [x, 0xF] [] s t) ∧
    ∃ t, exec (.subn x y) s = .next t ∧
      (x ≠ 0xF → ((t.readV x).toNat : Int) = ((s.readV y).toNat - (s.readV x).toNat : Int) % 256) ∧
      (t.readV 0xF).toNat = (if (s.readV x).toNat ≤ (s.readV y).toNat then 1 else 0) ∧
      OnlyChanges [x, 0xF] [] s t

/-- R149, R151 and their tables (the spec's decision D6 for `y = 0xF`): `8xy6` and `8xyE` by cases of `x` and `y`. The value shifted
is `V[y]`, read after the flag is written. -/
def Obligations.ShiftsFollowTheirTables : Prop :=
  ∀ (x y : Reg) (s : State),
    (∃ t, exec (.shr x y) s = .next t ∧ OnlyChanges [x, 0xF] [] s t ∧
      (x ≠ 0xF → (t.readV 0xF).toNat = (s.readV y).toNat % 2) ∧
      (y ≠ 0xF → (t.readV x).toNat = (s.readV y).toNat / 2) ∧
      (y = 0xF → (t.readV x).toNat = 0)) ∧
    ∃ t, exec (.shl x y) s = .next t ∧ OnlyChanges [x, 0xF] [] s t ∧
      (x ≠ 0xF → (t.readV 0xF).toNat = (s.readV y).toNat / 128) ∧
      (y ≠ 0xF → (t.readV x).toNat = (s.readV y).toNat * 2 % 256) ∧
      (y = 0xF → (t.readV x).toNat = (s.readV 0xF).toNat / 128 * 2)

/-- R156, R157: `Cxkk` writes the next draw, masked, so no bit outside `kk` is set and `kk = 0` writes 0, whatever the draw. The
draw is a free value: nothing here rests on which byte it is. -/
def Obligations.RandomByteIsMasked : Prop :=
  ∀ (x : Reg) (kk : Byte) (s : State),
    ∃ t, exec (.rnd x kk) s = .next t ∧ t.readV x = Config.rng s.draws &&& kk ∧
      (∀ j, (t.readV x).getLsbD j = true → kk.getLsbD j = true) ∧ (kk = 0 → t.readV x = 0) ∧
      t.draws = s.draws + 1 ∧ OnlyChanges [x] [.draws] s t

/-! ### The address register and memory -/

/-- R160, R161, R162: `Annn`, `Fx1E` and `Fx29`, encoded as their patterns say, write `I`, and nothing else. -/
def Obligations.AddressRegisterInstructionsWriteI : Prop :=
  ∀ (addr : Word) (x : Reg) (s : State),
    ((Instr.ldI addr).wellFormed = true → encode (.ldI addr) = 0b1010#4 ++ addr.setWidth 12 ∧ addr.toNat ≤ 0xFFF) ∧
    encode (.addI x) = 0b1111#4 ++ regBits x ++ 0b00011110#8 ∧
    encode (.ldF x) = 0b1111#4 ++ regBits x ++ 0b00101001#8 ∧
    (∃ t, exec (.ldI addr) s = .next t ∧ t.i = addr ∧ OnlyChanges [] [.i] s t) ∧
    (∃ t, exec (.addI x) s = .next t ∧ t.i.toNat = (s.i.toNat + (s.readV x).toNat) % 4096 ∧
      OnlyChanges [] [.i] s t) ∧
    ∃ t, exec (.ldF x) s = .next t ∧ t.i.toNat = (s.readV x).toNat % 16 * 5 ∧ OnlyChanges [] [.i] s t

/-- R163 (the spec's decision D16 for the unwrapped addresses): `Fx33` stores the three decimal digits of `V[x]` at `I`, `I + 1`
and `I + 2`, where those can be written. -/
def Obligations.DecimalDigitsAreStored : Prop :=
  ∀ (x : Reg) (s : State) (d2 d1 d0 : Byte), s.mem.wf →
    (s.readV x).toNat = d2.toNat * 100 + d1.toNat * 10 + d0.toNat → d1.toNat < 10 → d0.toNat < 10 →
    s.canWrite s.i.toNat = true → s.canWrite (s.i.toNat + 1) = true → s.canWrite (s.i.toNat + 2) = true →
    ∃ t, exec (.ldB x) s = .next t ∧
      Stored [(s.i.toNat, d2), (s.i.toNat + 1, d1), (s.i.toNat + 2, d0)] s t ∧
      OnlyChanges [] [.mem, .screen] s t

/-- R164 (the spec's decisions D16, D19): `Fx55` stores `V[0]` to `V[x]` at `I` to `I + x`, where those can be written, and leaves
`I`. -/
def Obligations.RegisterBlockIsStored : Prop :=
  ∀ (x : Reg) (s : State), s.mem.wf → (∀ k, k ≤ x.val → s.canWrite (s.i.toNat + k) = true) →
    ∃ t, exec (.ldMemVx x) s = .next t ∧
      Stored ((List.range (x.val + 1)).map fun k => (s.i.toNat + k, s.readV (Fin.ofNat 16 k))) s t ∧
      OnlyChanges [] [.mem, .screen] s t

/-- R165 (the spec's decisions D16, D19): `Fx65` loads `V[0]` to `V[x]` from `I` to `I + x`, where those can be read, and leaves `I`
and every other register. -/
def Obligations.RegisterBlockIsLoaded : Prop :=
  ∀ (x : Reg) (s : State), (∀ k, k ≤ x.val → s.canRead (s.i.toNat + k) = true) →
    ∃ t, exec (.ldVxMem x) s = .next t ∧
      (∀ k : Reg, k.val ≤ x.val → s.busRead (s.i.toNat + k.val) = .ok (t.readV k)) ∧
      OnlyChanges ((List.range (x.val + 1)).map (Fin.ofNat 16)) [] s t

/-- R163, R164 (the spec's decision D20): at the first address that cannot be written, `Fx33` and `Fx55` end with the error of the
write to it; the bytes before it are stored, and nothing else is changed. -/
def Obligations.StoresStopAtAnAddressTheyCannotWrite : Prop :=
  ∀ (x : Reg) (s : State) (k : Nat) (i : Instr) (bytes : List Byte), s.mem.wf →
    (i = .ldMemVx x ∧ bytes = (List.range (x.val + 1)).map (fun k => s.readV (Fin.ofNat 16 k)) ∨
     i = .ldB x ∧ ∃ d2 d1 d0 : Byte, bytes = [d2, d1, d0] ∧
       (s.readV x).toNat = d2.toNat * 100 + d1.toNat * 10 + d0.toNat ∧ d1.toNat < 10 ∧ d0.toNat < 10) →
    k < bytes.length → (∀ j, j < k → s.canWrite (s.i.toNat + j) = true) → s.canWrite (s.i.toNat + k) = false →
    ∃ t e, exec i s = .fault (AccessError.toFault e t) ∧ s.busWrite (s.i.toNat + k) (bytes.getD k 0) = .error e ∧
      Stored ((List.range k).map fun j => (s.i.toNat + j, bytes.getD j 0)) s t ∧
      OnlyChanges [] [.mem, .screen] s t

/-- R165 (the spec's decision D20): at the first address that cannot be read, `Fx65` ends with its error; the registers before it
are loaded, and nothing else is changed. -/
def Obligations.LoadsStopAtAnAddressTheyCannotRead : Prop :=
  ∀ (x : Reg) (s : State) (k : Nat), k ≤ x.val → (∀ j, j < k → s.canRead (s.i.toNat + j) = true) →
    s.canRead (s.i.toNat + k) = false →
    ∃ t e, exec (.ldVxMem x) s = .fault (AccessError.toFault e t) ∧ s.busRead (s.i.toNat + k) = .error e ∧
      (∀ j : Reg, j.val < k → s.busRead (s.i.toNat + j.val) = .ok (t.readV j)) ∧
      OnlyChanges ((List.range k).map (Fin.ofNat 16)) [] s t

/-- R166: `Fx55` and then `Fx65` with the same `I` and `x` restore `V[0]` to `V[x]`, whatever the registers held in between, where
the block is mapped to distinct bytes of memory, the same for reads and writes. -/
def Obligations.StoreThenLoadRestoresTheRegisters : Prop :=
  ∀ (x : Reg) (s t u : State), s.mem.wf →
    (∀ k, k ≤ x.val → ∃ m, route s.writable (s.i.toNat + k) = some (.memory, m) ∧ m < s.mem.size ∧
      route s.readable (s.i.toNat + k) = some (.memory, m)) →
    (∀ j k, j ≤ x.val → k ≤ x.val → route s.writable (s.i.toNat + j) = route s.writable (s.i.toNat + k) → j = k) →
    exec (.ldMemVx x) s = .next t → u.i = t.i →
    (∀ k, k ≤ x.val → u.busRead (s.i.toNat + k) = t.busRead (s.i.toNat + k)) →
    ∃ w, exec (.ldVxMem x) u = .next w ∧ ∀ k : Reg, k.val ≤ x.val → w.readV k = s.readV k

/-! ### Timers and keys -/

/-- R170, R172, R173: `Fx07`, `Fx15` and `Fx18`, encoded as their patterns say, move a timer or a register, and change
nothing else. -/
def Obligations.TimerInstructionsMoveOneByte : Prop :=
  ∀ (x : Reg) (s : State),
    encode (.ldVxDt x) = 0b1111#4 ++ regBits x ++ 0b00000111#8 ∧
    encode (.ldDtVx x) = 0b1111#4 ++ regBits x ++ 0b00010101#8 ∧
    encode (.ldStVx x) = 0b1111#4 ++ regBits x ++ 0b00011000#8 ∧
    (∃ t, exec (.ldVxDt x) s = .next t ∧ t.readV x = s.dt ∧ OnlyChanges [x] [] s t) ∧
    (∃ t, exec (.ldDtVx x) s = .next t ∧ t.dt = s.readV x ∧ OnlyChanges [] [.dt] s t) ∧
    ∃ t, exec (.ldStVx x) s = .next t ∧ t.st = s.readV x ∧ OnlyChanges [] [.st] s t

/-- R171: `Fx0A` completes at once: it arms the wait on register `x`, writes no register, and halts the interpreter. -/
def Obligations.WaitInstructionArmsTheLatch : Prop :=
  ∀ (x : Reg) (s : State),
    ∃ t, exec (.ldVxK x) s = .next t ∧ t.wait.target = x ∧ t.halted ∧ OnlyChanges [] [.wait] s t

/-- R193 (the spec's decisions D11, D25): a key event sets the key's state; a press edge while a wait is pending writes the key's
number to the waiting register and ends the wait; every other event leaves both; an index above 15 is an error. -/
def Obligations.KeyEventsSetKeysAndResolveWaits : Prop :=
  ∀ (s : State) (p : Bool),
    (∀ k : Fin 16, ∃ t, setKeyPressed k.val p s = .next t ∧ t.keyPressed k = p ∧
      (∀ j, j ≠ k → t.keyPressed j = s.keyPressed j) ∧ t.wait.target = s.wait.target ∧
      (s.halted ∧ p = true ∧ s.keyPressed k = false →
        ¬ t.halted ∧ (t.readV s.wait.target).toNat = k.val ∧ OnlyChanges [s.wait.target] [.keys, .wait] s t) ∧
      (¬ (s.halted ∧ p = true ∧ s.keyPressed k = false) → OnlyChanges [] [.keys] s t)) ∧
    ∀ k, 16 ≤ k → setKeyPressed k p s = .fault (.outOfRange (.key k) s)

/-- R198 (the spec's decision D29): `tickTimers` counts each timer down by one, not below 0, Halted or Running, and changes
nothing else. -/
def Obligations.TickTimersCountsDownToZero : Prop :=
  ∀ s : State, ∃ t, hostCall .tickTimers s = .next (t, .done) ∧ t.dt.toNat = s.dt.toNat - 1 ∧
    t.st.toNat = s.st.toNat - 1 ∧ OnlyChanges [] [.dt, .st] s t

/-! ### Memory, screen and bus -/

/-- R42, R43, R44: the Memory Device inside its capacity gives the byte it holds, reads back what was written, changes no
other byte, and writing the same byte again changes nothing; outside it, both accesses fail. -/
def Obligations.MemoryReadsBackWhatWasWritten : Prop :=
  ∀ (m : Memory) (a : Nat) (b : Byte), m.wf →
    (a < m.size → m.read a = .ok (m.byteAt a) ∧ ∃ n, m.write a b = .ok n ∧ n.wf ∧ n.size = m.size ∧ n.byteAt a = b ∧
      n.read a = .ok b ∧ (∀ c, c ≠ a → n.byteAt c = m.byteAt c ∧ n.read c = m.read c) ∧ n.write a b = .ok n) ∧
    (m.size ≤ a → m.write a b = .error (.outOfRange .memory a) ∧ m.read a = .error (.outOfRange .memory a))

/-- R68, R76: after a store through the bus, every address that is routed to the stored byte of memory reads it, through whichever
range, a fetch included; every address routed elsewhere reads as before. -/
def Obligations.StoresAreSeenThroughEveryRange : Prop :=
  ∀ (s t : State) (a m : Nat) (b : Byte), s.mem.wf → route s.writable a = some (.memory, m) → s.busWrite a b = .ok t →
    ∀ c, (route s.readable c = some (.memory, m) → t.busRead c = .ok b) ∧
      (route s.readable c ≠ some (.memory, m) → t.busRead c = s.busRead c)

/-- R54, R56: byte `S[k]` of the screen's byte view is eight pixels of a row, the leftmost in bit 7; a bus-facing write XORs its
byte into those pixels and changes no other, and a second write of the same byte undoes it. -/
def Obligations.ScreenBytesAliasThePixels : Prop :=
  (∀ (p : Screen) (r : Fin 32) (c : Fin 64),
    (p.byteAt (r.val * 8 + c.val / 8)).getLsbD (7 - c.val % 8) = p.getPixel r c) ∧
  ∀ (p : Screen) (k : Nat) (v : Byte), k < 256 →
    ∃ q, p.write k v = .ok q ∧ q.write k v = .ok p ∧
      ∀ r c, q.getPixel r c =
        (p.getPixel r c ^^ (decide (r.val * 8 + c.val / 8 = k) && v.getLsbD (7 - c.val % 8)))

/-- R59, R60, R61: a registration is refused for an inverted range (the spec's decision D26, log 21) and for the Input Device (D21,
log 17), fails on a conflict with the state unchanged, and else adds its entry at the end of its registry alone. The order of the
three tests is this model's choice (log 26): the range first, so that an inverted range of the Input Device is reported as inverted,
then the device, then the conflict, so that a registration both refused and in conflict is refused. -/
def Obligations.RegistrationAddsOnlyWhatDoesNotConflict : Prop :=
  ∀ (s : State) (lower upper : Nat),
    (upper < lower → ∀ dir dev, register dir ⟨dev, lower, upper⟩ s = .refused (.invertedRange lower upper)) ∧
    (lower ≤ upper → ∀ dir, register dir ⟨.input, lower, upper⟩ s = .refused .inputDeviceOnBus) ∧
    (lower ≤ upper → ∀ d : BusDevice,
      let range : Registration := ⟨if d = .memory then .memory else .screen, lower, upper⟩
      ((∃ e ∈ s.readable, e.upper > lower ∧ upper > e.lower) →
        register .read range s = .fault (.rangeConflict .read range s)) ∧
      ((¬ ∃ e ∈ s.readable, e.upper > lower ∧ upper > e.lower) →
        register .read range s = .next { s with readable := s.readable ++ [⟨d, lower, upper⟩] }) ∧
      ((∃ e ∈ s.writable, e.upper > lower ∧ upper > e.lower) →
        register .write range s = .fault (.rangeConflict .write range s)) ∧
      ((¬ ∃ e ∈ s.writable, e.upper > lower ∧ upper > e.lower) →
        register .write range s = .next { s with writable := s.writable ++ [⟨d, lower, upper⟩] }))

/-- R63, R64, R65 (the spec's decisions D4, log 11, for an unmapped write, and D21, log 17, for the screen's read and its bound): in a
valid registry, the entry that contains an address is the one a read or a write of it goes to, at the address less the entry's
lower bound; an address no entry contains is unmapped. A device reads a local address inside it as its byte, takes a write there, and
raises `OutOfRange` for every other. -/
def Obligations.BusRoutesToTheOnlyEntry : Prop :=
  ∀ (s : State) (a : Nat),
    (registryValid s.readable →
      (∀ e ∈ s.readable, e.lower ≤ a → a < e.upper → s.busRead a = s.deviceRead e.dev (a - e.lower)) ∧
      ((∀ e ∈ s.readable, ¬ (e.lower ≤ a ∧ a < e.upper)) → s.busRead a = .error (.unmapped .read a))) ∧
    (registryValid s.writable → ∀ b,
      (∀ e ∈ s.writable, e.lower ≤ a → a < e.upper → s.busWrite a b = s.deviceWrite e.dev (a - e.lower) b) ∧
      ((∀ e ∈ s.writable, ¬ (e.lower ≤ a ∧ a < e.upper)) → s.busWrite a b = .error (.unmapped .write a))) ∧
    (∀ l, (l < s.mem.size → s.deviceRead .memory l = .ok (s.mem.byteAt l)) ∧
      (l < 256 → s.deviceRead .screen l = .ok (s.screen.byteAt l))) ∧
    ∀ dev l b, (l < s.capacity dev → ∃ t, s.deviceWrite dev l b = .ok t) ∧
      (s.capacity dev ≤ l → s.deviceRead dev l = .error (.outOfRange dev l) ∧
        s.deviceWrite dev l b = .error (.outOfRange dev l))

/-! ### Reset and the host -/

/-- R40: the state after reset of a standard instance, every piece of the spec's state. `PC` is derived (R220). The zeros, the pixels,
the keys and the latch, and so the Running state (R34), are the spec's decision D13 (log 4). The capacity is the default of D1 (R10,
log 2), the two registries are D3's map (R62, log 11), and the font's bytes are D22's (R222, log 5). `SP = 0x1000` is this model's choice,
since D14 leaves it open (log 3). -/
def Obligations.ResetHoldsTheResetValues : Prop :=
  (∀ r, State.reset.readV r = 0) ∧ State.reset.pc = 0x200 ∧ State.reset.i = 0 ∧ State.reset.sp = 0x1000 ∧
  State.reset.dt = 0 ∧ State.reset.st = 0 ∧ (∀ r c, State.reset.screen.getPixel r c = false) ∧
  (∀ k, State.reset.keyPressed k = false) ∧ ¬ State.reset.halted ∧ State.reset.wait = ⟨0, false⟩ ∧
  State.reset.mem.size = 4096 ∧ State.reset.readable = [⟨.memory, 0, 4096⟩] ∧
  State.reset.writable = [⟨.memory, 0, 4096⟩] ∧ (∀ a, State.reset.canWrite a = true ↔ a < 4096) ∧
  (∀ a b, State.reset.busRead a = .ok b ↔ a < 4096 ∧ b = Config.standardFont.toList.getD a 0)

/-- R223 (the spec's decision D30): loading an image that fits copies its bytes from `0x200` on and changes no other byte; one that
does not fit ends with `OutOfRange(memory, MEM_SIZE)`. -/
def Obligations.ProgramLoadCopiesTheImage : Prop :=
  ∀ (s : State) (image : List Byte), s.mem.wf → 0x200 ≤ s.mem.size →
    (image.length ≤ s.mem.size - 0x200 → ∃ t, loadProgram image s = .next t ∧ OnlyChanges [] [.mem] s t ∧
      t.mem.size = s.mem.size ∧ ∀ a, t.mem.byteAt a =
        if 0x200 ≤ a ∧ a < 0x200 + image.length then image.getD (a - 0x200) 0 else s.mem.byteAt a) ∧
    (s.mem.size - 0x200 < image.length → ∃ t, loadProgram image s =
      .fault (.outOfRange (.address .memory s.mem.size) t) ∧
      loadProgram (image.take (s.mem.size - 0x200)) s = .next t)

/-- R39 (the spec's decision D32, log 21): the host's general-register accessors. A read gives the register's value, a fitting write
sets it and nothing else, a value too wide is refused, and an index of 16 or more is an error that changes nothing. That the index
is checked before the value, so that the error wins where both are out of range, is this model's choice (log 13). -/
def Obligations.RegisterAccessorsAreBounded : Prop :=
  ∀ (s : State) (value : Nat),
    (∀ k : Reg, hostCall (.readReg (.v k.val)) s = .next (s, .number (s.readV k).toNat) ∧
      (value < 256 → ∃ t, hostCall (.writeReg (.v k.val) value) s = .next (t, .done) ∧
        (t.readV k).toNat = value ∧ OnlyChanges [k] [] s t) ∧
      (256 ≤ value → hostCall (.writeReg (.v k.val) value) s = .refused (.valueTooWide value))) ∧
    ∀ k, 16 ≤ k → hostCall (.readReg (.v k)) s = .fault (.invalidRegisterIndex k s) ∧
      hostCall (.writeReg (.v k) value) s = .fault (.invalidRegisterIndex k s)
end

