-- ==== Sys2Proof/Laws/Memory.lean ====
section
/-! SUPPORT. The Memory Device: a read after a write, the canonical form kept by every operation, and canonical memories
that read the same are the same data. -/

namespace Sys2Proof.Machine

/-! ### Lists of cells -/

/-- Rising addresses. -/
abbrev Rising (cells : List Host.Cell) : Prop := cells.Pairwise fun p q => p.1 < q.1

/-- An address below every listed one reads as an unlisted address. -/
theorem cellsByte_below {cells : List Host.Cell} {a : Nat} (h : ∀ c ∈ cells, a < c.1) :
    cellsByte cells a = Memory.background a := by
  induction cells with
  | nil => rfl
  | cons c rest ih =>
    obtain ⟨b, w⟩ := c
    have hb : b ≠ a := by have := h (b, w) (by simp); simp at this; omega
    simp only [cellsByte, hb, if_false]
    exact ih fun c hc => h c (by simp [hc])

theorem cellsByte_consCell {rest : List Host.Cell} {a : Nat} (b : Byte) (x : Nat) (h : ∀ c ∈ rest, a < c.1) :
    cellsByte (consCell a b rest) x = if a = x then b else cellsByte rest x := by
  unfold consCell
  split
  · next hb =>
    split
    · next hx => subst hx; rw [cellsByte_below h, hb]
    · rfl
  · simp only [cellsByte]

/-- A list of cells after one byte is put into it. -/
theorem cellsByte_putCell {cells : List Host.Cell} (hs : Rising cells) (a : Nat) (b : Byte) (x : Nat) :
    cellsByte (putCell a b cells) x = if a = x then b else cellsByte cells x := by
  induction cells with
  | nil => exact cellsByte_consCell b x (by simp)
  | cons c rest ih =>
    obtain ⟨k, w⟩ := c
    rw [Rising, List.pairwise_cons] at hs
    simp only [putCell]
    split
    · next hlt =>
      refine cellsByte_consCell b x ?_
      intro c hc
      rcases List.mem_cons.1 hc with rfl | hc
      · exact hlt
      · have := hs.1 c hc; simp at this; omega
    · split
      · next heq =>
        subst heq
        rw [cellsByte_consCell b x fun c hc => hs.1 c hc]
        simp only [cellsByte]
        split <;> rfl
      · next hne =>
        simp only [cellsByte, ih hs.2]
        by_cases hkx : k = x
        · have : a ≠ x := by omega
          simp [hkx, this]
        · simp [hkx]

theorem mem_consCell {a : Nat} {b : Byte} {rest : List Host.Cell} {c : Host.Cell} (h : c ∈ consCell a b rest) :
    (c = (a, b) ∧ b ≠ Memory.background a) ∨ c ∈ rest := by
  unfold consCell at h
  split at h
  · exact .inr h
  · next hb =>
    rcases List.mem_cons.1 h with rfl | h
    · exact .inl ⟨rfl, hb⟩
    · exact .inr h

/-- Every cell of a list into which a byte was put is the new one or an old one. -/
theorem mem_putCell {a : Nat} {b : Byte} {cells : List Host.Cell} {c : Host.Cell} (h : c ∈ putCell a b cells) :
    (c = (a, b) ∧ b ≠ Memory.background a) ∨ c ∈ cells := by
  induction cells with
  | nil => exact mem_consCell h
  | cons d rest ih =>
    obtain ⟨k, w⟩ := d
    simp only [putCell] at h
    split at h
    · exact mem_consCell h
    · split at h
      · rcases mem_consCell h with h | h
        · exact .inl h
        · exact .inr (by simp [h])
      · rcases List.mem_cons.1 h with rfl | h
        · exact .inr (by simp)
        · rcases ih h with h | h
          · exact .inl h
          · exact .inr (by simp [h])

theorem rising_consCell {rest : List Host.Cell} {a : Nat} {b : Byte} (hs : Rising rest) (h : ∀ c ∈ rest, a < c.1) :
    Rising (consCell a b rest) := by
  unfold consCell
  split
  · exact hs
  · exact List.pairwise_cons.2 ⟨fun c hc => h c hc, hs⟩

theorem rising_putCell {cells : List Host.Cell} (hs : Rising cells) (a : Nat) (b : Byte) : Rising (putCell a b cells) := by
  induction cells with
  | nil => exact rising_consCell hs (by simp)
  | cons c rest ih =>
    obtain ⟨k, w⟩ := c
    have hs' := hs
    rw [Rising, List.pairwise_cons] at hs
    simp only [putCell]
    split
    · next hlt =>
      refine rising_consCell hs' ?_
      intro c hc
      rcases List.mem_cons.1 hc with rfl | hc
      · exact hlt
      · have := hs.1 c hc; simp at this; omega
    · split
      · next heq =>
        subst heq
        exact rising_consCell hs.2 fun c hc => hs.1 c hc
      · next hne =>
        refine List.pairwise_cons.2 ⟨fun c hc => ?_, ih hs.2⟩
        rcases mem_putCell hc with ⟨rfl, -⟩ | hc
        · show k < a; omega
        · exact hs.1 c hc

/-! ### The device -/

@[simp] theorem setByte_size (m : Memory) (a : Nat) (b : Byte) : (m.setByte a b).size = m.size := rfl

/-- A read after a write (R42 to R44). -/
theorem byteAt_setByte {m : Memory} (h : m.wf) (a : Nat) (b : Byte) (x : Nat) :
    (m.setByte a b).byteAt x = if a = x then b else m.byteAt x :=
  cellsByte_putCell h.1 a b x

/-- A write inside the device keeps the canonical form. -/
theorem setByte_wf {m : Memory} (h : m.wf) {a : Nat} (b : Byte) (ha : a < m.size) : (m.setByte a b).wf := by
  refine ⟨rising_putCell h.1 a b, fun c hc => ?_⟩
  rcases mem_putCell hc with ⟨rfl, hb⟩ | hc
  · exact ⟨ha, hb⟩
  · exact h.2 c hc

/-- Everything a write can do (R43). -/
theorem memory_write_cases {m : Memory} {a : Nat} {b : Byte} :
    (a < m.size ∧ m.write a b = .ok (m.setByte a b)) ∨
    (m.size ≤ a ∧ m.write a b = .error (.outOfRange .memory a)) := by
  unfold Memory.write
  split
  · exact .inl ⟨‹_›, rfl⟩
  · exact .inr ⟨by omega, rfl⟩

/-- Every write keeps the canonical form and the capacity (R30). -/
theorem memory_write_wf {m t : Memory} {a : Nat} {b : Byte} (h : m.wf) (hw : m.write a b = .ok t) :
    t.wf ∧ t.size = m.size := by
  rcases memory_write_cases (m := m) (a := a) (b := b) with ⟨ha, hb⟩ | ⟨-, hb⟩
  · rw [hb] at hw; cases hw; exact ⟨setByte_wf h b ha, rfl⟩
  · rw [hb] at hw; cases hw

/-! ### Canonical forms are unique -/

theorem cellsByte_of_mem {cells : List Host.Cell} (hs : Rising cells) {a : Nat} {b : Byte} (h : (a, b) ∈ cells) :
    cellsByte cells a = b := by
  induction cells with
  | nil => simp at h
  | cons c rest ih =>
    obtain ⟨k, w⟩ := c
    rw [Rising, List.pairwise_cons] at hs
    rcases List.mem_cons.1 h with h | h
    · cases h; simp [cellsByte]
    · have : k ≠ a := by have := hs.1 _ h; simp at this; omega
      simp only [cellsByte, this, if_false]
      exact ih hs.2 h

theorem mem_of_cellsByte {cells : List Host.Cell} {a : Nat} (h : cellsByte cells a ≠ Memory.background a) :
    (a, cellsByte cells a) ∈ cells := by
  induction cells with
  | nil => simp [cellsByte] at h
  | cons c rest ih =>
    obtain ⟨k, w⟩ := c
    simp only [cellsByte] at h ⊢
    split at h
    · next hk => subst hk; simp
    · next hk => simp only [hk, if_false]; exact List.mem_cons_of_mem _ (ih h)

/-- A cell is in a canonical memory exactly where its byte is what the memory reads and no unlisted byte. -/
theorem mem_cells_iff {m : Memory} (h : m.wf) (a : Nat) (b : Byte) :
    (a, b) ∈ m.cells ↔ m.byteAt a = b ∧ b ≠ Memory.background a := by
  constructor
  · intro hc
    exact ⟨cellsByte_of_mem h.1 hc, (h.2 _ hc).2⟩
  · rintro ⟨rfl, hb⟩
    exact mem_of_cellsByte hb

/-- Canonical memories of one capacity that read the same are the same data. -/
theorem memory_ext {m n : Memory} (hm : m.wf) (hn : n.wf) (hsize : m.size = n.size)
    (h : ∀ a, m.byteAt a = n.byteAt a) : m = n := by
  have hmem : ∀ c, c ∈ m.cells ↔ c ∈ n.cells := by
    rintro ⟨a, b⟩
    rw [mem_cells_iff hm, mem_cells_iff hn, h]
  have hcells : m.cells = n.cells := by
    have nd : ∀ {l : List Host.Cell}, Rising l → l.Nodup := fun hl =>
      hl.imp fun hlt heq => by simp [heq] at hlt
    have hp : m.cells.Perm n.cells := (List.perm_ext_iff_of_nodup (nd hm.1) (nd hn.1)).2 hmem
    exact hp.eq_of_pairwise (fun a b _ _ hab hba => by omega) hm.1 hn.1
  cases m
  cases n
  simp_all

end Sys2Proof.Machine
end

