-- ==== Sys2Proof/Laws/Screen.lean ====
section
/-! SUPPORT. The Screen Device: a pixel after each operation, the byte view's alias of the pixels, and screens with the same
pixels are the same. -/

namespace Sys2Proof.Machine

theorem getMsbD_columnBit (c c' : Fin 64) : (columnBit c).getMsbD c' = decide (c = c') := by
  have h : 63 - c'.val < 64 := by omega
  simp only [columnBit, BitVec.getMsbD, BitVec.getLsbD_twoPow, Fin.ext_iff]
  have h1 := c.isLt
  have h2 := c'.isLt
  simp only [h2, decide_true, Bool.true_and, show 63 - c.val < 64 by omega]
  exact decide_eq_decide.2 ⟨fun h => by omega, fun h => by omega⟩

/-- A pixel after a pixel is set (R53). -/
theorem getPixel_setPixel (p : Screen) (r r' : Fin 32) (c c' : Fin 64) (lit : Bool) :
    (p.setPixel r c lit).getPixel r' c' = if r = r' ∧ c = c' then lit else p.getPixel r' c' := by
  simp only [Screen.setPixel, Screen.getPixel, Fin.getElem_fin, Vector.getElem_set, Fin.ext_iff]
  by_cases hr : r.val = r'.val
  · have hr' : r = r' := Fin.ext hr
    subst hr'
    simp only [if_true, true_and]
    cases lit
    · simp only [Bool.false_eq_true, if_false, BitVec.getMsbD_and, BitVec.getMsbD_not, getMsbD_columnBit, Fin.ext_iff]
      split <;> simp_all
    · simp only [if_true, BitVec.getMsbD_or, getMsbD_columnBit, Fin.ext_iff]
      split <;> simp_all
  · simp [hr]

/-- A cleared screen has no lit pixel (R55). -/
@[simp] theorem getPixel_clear (p : Screen) (r : Fin 32) (c : Fin 64) : p.clear.getPixel r c = false := by
  simp [Screen.clear, Screen.getPixel]

/-- Screens with the same pixels are the same. -/
theorem screen_ext {p q : Screen} (h : ∀ r c, p.getPixel r c = q.getPixel r c) : p = q := by
  obtain ⟨p⟩ := p
  obtain ⟨q⟩ := q
  congr 1
  ext1 k hk
  refine BitVec.eq_of_getMsbD_eq fun c hc => ?_
  exact h ⟨k, hk⟩ ⟨c, hc⟩

/-- A bit of `S[b]` is a pixel (R54): bit `7 - j` is column `8 (b mod 8) + j` of row `b div 8`. -/
theorem byteAt_bit (p : Screen) {b j : Nat} (hj : j < 8) :
    (p.byteAt b).getLsbD (7 - j) = p.getPixel (byteRow b) (Fin.ofNat 64 (8 * (b % 8) + j)) := by
  have hb : b % 8 < 8 := Nat.mod_lt _ (by omega)
  simp only [Screen.byteAt, Screen.getPixel, BitVec.getLsbD_extractLsb', BitVec.getMsbD, byteShift, Fin.val_ofNat]
  have h1 : (8 * (b % 8) + j) % 64 = 8 * (b % 8) + j := Nat.mod_eq_of_lt (by omega)
  simp only [h1]
  have h2 : 56 - 8 * (b % 8) + (7 - j) = 64 - 1 - (8 * (b % 8) + j) := by omega
  simp [h2, show 7 - j < 8 by omega, show 8 * (b % 8) + j < 64 by omega]

/-- `S[b]` after a byte is XORed into `S[b']` (R56). -/
theorem byteAt_xorByte (p : Screen) {b b' : Nat} (hb : b < 256) (hb' : b' < 256) (v : Byte) :
    (p.xorByte b' v).byteAt b = if b' = b then p.byteAt b ^^^ v else p.byteAt b := by
  simp only [Screen.byteAt, Screen.xorByte, Fin.getElem_fin, Vector.getElem_set]
  by_cases hr : (byteRow b').val = (byteRow b).val
  · simp only [hr, if_true]
    have hr2 : byteRow b' = byteRow b := Fin.ext hr
    ext i hi
    simp only [byteRow, Fin.val_ofNat] at hr
    by_cases heq : b' = b
    · subst heq
      simp only [if_true, BitVec.getElem_extractLsb', BitVec.getLsbD_xor, BitVec.getLsbD_shiftLeft,
        BitVec.getLsbD_setWidth, BitVec.getElem_xor, byteShift, BitVec.getElem_extractLsb']
      have : 56 - 8 * (b' % 8) + i < 64 := by omega
      simp [this, show ¬ (56 - 8 * (b' % 8) + i < 56 - 8 * (b' % 8)) by omega, show i < 64 by omega,
        BitVec.getLsbD_eq_getElem hi]
    · have hm : b' % 8 ≠ b % 8 := by omega
      simp only [heq, if_false, BitVec.getElem_extractLsb', BitVec.getLsbD_xor, BitVec.getLsbD_shiftLeft,
        BitVec.getLsbD_setWidth, byteShift]
      by_cases hlt : 56 - 8 * (b % 8) + i < 56 - 8 * (b' % 8)
      · simp [hlt]
      · have : 8 ≤ 56 - 8 * (b % 8) + i - (56 - 8 * (b' % 8)) := by omega
        simp [hlt, BitVec.getLsbD_of_ge _ _ this]
  · have : b' ≠ b := by rintro rfl; exact hr rfl
    simp [hr, this]

/-- The byte that holds a pixel, and the pixel's place in it from the left (R54). -/
theorem getPixel_eq_byteAt (p : Screen) (r : Fin 32) (c : Fin 64) :
    p.getPixel r c = (p.byteAt (r.val * 8 + c.val / 8)).getLsbD (7 - c.val % 8) := by
  have hr := r.isLt
  have hc := c.isLt
  rw [byteAt_bit p (by omega : c.val % 8 < 8)]
  have h1 : byteRow (r.val * 8 + c.val / 8) = r := by
    apply Fin.ext; simp only [byteRow, Fin.val_ofNat]; omega
  have h2 : Fin.ofNat 64 (8 * ((r.val * 8 + c.val / 8) % 8) + c.val % 8) = c := by
    apply Fin.ext; simp only [Fin.val_ofNat]; omega
  rw [h1, h2]

/-- Screens with the same bytes are the same: the two views alias the same bits (R54). -/
theorem screen_ext_bytes {p q : Screen} (h : ∀ b, b < 256 → p.byteAt b = q.byteAt b) : p = q := by
  refine screen_ext fun r c => ?_
  have hr := r.isLt
  have hc := c.isLt
  rw [getPixel_eq_byteAt, getPixel_eq_byteAt, h _ (by omega)]

/-- Everything a bus-facing write can do (R56, R58). -/
theorem screen_write_cases {p : Screen} {b : Nat} {v : Byte} :
    (b < 256 ∧ p.write b v = .ok (p.xorByte b v)) ∨ (256 ≤ b ∧ p.write b v = .error (.outOfRange .screen b)) := by
  unfold Screen.write
  split
  · exact .inl ⟨‹_›, rfl⟩
  · exact .inr ⟨by omega, rfl⟩

end Sys2Proof.Machine
end

