-- ==== Sys2Proof/Laws/State.lean ====
section
/-! SUPPORT. What each named update of the state does to each field, one lemma a field, true by rfl; and what the general
registers read after it. -/

namespace Sys2Proof.Machine

variable (s : State)

/-! ### `State.writeV` -/

@[simp] theorem writeV_v (x : Reg) (b : Byte) : (s.writeV x b).v = s.v.set x b := rfl
@[simp] theorem writeV_pc (x : Reg) (b : Byte) : (s.writeV x b).pc = s.pc := rfl
@[simp] theorem writeV_i (x : Reg) (b : Byte) : (s.writeV x b).i = s.i := rfl
@[simp] theorem writeV_sp (x : Reg) (b : Byte) : (s.writeV x b).sp = s.sp := rfl
@[simp] theorem writeV_dt (x : Reg) (b : Byte) : (s.writeV x b).dt = s.dt := rfl
@[simp] theorem writeV_st (x : Reg) (b : Byte) : (s.writeV x b).st = s.st := rfl
@[simp] theorem writeV_mem (x : Reg) (b : Byte) : (s.writeV x b).mem = s.mem := rfl
@[simp] theorem writeV_screen (x : Reg) (b : Byte) : (s.writeV x b).screen = s.screen := rfl
@[simp] theorem writeV_keys (x : Reg) (b : Byte) : (s.writeV x b).keys = s.keys := rfl
@[simp] theorem writeV_wait (x : Reg) (b : Byte) : (s.writeV x b).wait = s.wait := rfl
@[simp] theorem writeV_readable (x : Reg) (b : Byte) : (s.writeV x b).readable = s.readable := rfl
@[simp] theorem writeV_writable (x : Reg) (b : Byte) : (s.writeV x b).writable = s.writable := rfl
@[simp] theorem writeV_draws (x : Reg) (b : Byte) : (s.writeV x b).draws = s.draws := rfl
@[simp] theorem writeV_keyPressed (x : Reg) (b : Byte) (k : Fin 16) : (s.writeV x b).keyPressed k = s.keyPressed k := rfl

/-! ### `State.writePc` -/

@[simp] theorem writePc_v (a : Word) : (s.writePc a).v = s.v := rfl
@[simp] theorem writePc_pc (a : Word) : (s.writePc a).pc = a := rfl
@[simp] theorem writePc_i (a : Word) : (s.writePc a).i = s.i := rfl
@[simp] theorem writePc_sp (a : Word) : (s.writePc a).sp = s.sp := rfl
@[simp] theorem writePc_dt (a : Word) : (s.writePc a).dt = s.dt := rfl
@[simp] theorem writePc_st (a : Word) : (s.writePc a).st = s.st := rfl
@[simp] theorem writePc_mem (a : Word) : (s.writePc a).mem = s.mem := rfl
@[simp] theorem writePc_screen (a : Word) : (s.writePc a).screen = s.screen := rfl
@[simp] theorem writePc_keys (a : Word) : (s.writePc a).keys = s.keys := rfl
@[simp] theorem writePc_wait (a : Word) : (s.writePc a).wait = s.wait := rfl
@[simp] theorem writePc_readable (a : Word) : (s.writePc a).readable = s.readable := rfl
@[simp] theorem writePc_writable (a : Word) : (s.writePc a).writable = s.writable := rfl
@[simp] theorem writePc_draws (a : Word) : (s.writePc a).draws = s.draws := rfl
@[simp] theorem writePc_readV (a : Word) (r : Reg) : (s.writePc a).readV r = s.readV r := rfl
@[simp] theorem writePc_keyPressed (a : Word) (k : Fin 16) : (s.writePc a).keyPressed k = s.keyPressed k := rfl

/-! ### `State.writeI` -/

@[simp] theorem writeI_v (a : Word) : (s.writeI a).v = s.v := rfl
@[simp] theorem writeI_pc (a : Word) : (s.writeI a).pc = s.pc := rfl
@[simp] theorem writeI_i (a : Word) : (s.writeI a).i = a := rfl
@[simp] theorem writeI_sp (a : Word) : (s.writeI a).sp = s.sp := rfl
@[simp] theorem writeI_dt (a : Word) : (s.writeI a).dt = s.dt := rfl
@[simp] theorem writeI_st (a : Word) : (s.writeI a).st = s.st := rfl
@[simp] theorem writeI_mem (a : Word) : (s.writeI a).mem = s.mem := rfl
@[simp] theorem writeI_screen (a : Word) : (s.writeI a).screen = s.screen := rfl
@[simp] theorem writeI_keys (a : Word) : (s.writeI a).keys = s.keys := rfl
@[simp] theorem writeI_wait (a : Word) : (s.writeI a).wait = s.wait := rfl
@[simp] theorem writeI_readable (a : Word) : (s.writeI a).readable = s.readable := rfl
@[simp] theorem writeI_writable (a : Word) : (s.writeI a).writable = s.writable := rfl
@[simp] theorem writeI_draws (a : Word) : (s.writeI a).draws = s.draws := rfl
@[simp] theorem writeI_readV (a : Word) (r : Reg) : (s.writeI a).readV r = s.readV r := rfl
@[simp] theorem writeI_keyPressed (a : Word) (k : Fin 16) : (s.writeI a).keyPressed k = s.keyPressed k := rfl

/-! ### `State.writeSp` -/

@[simp] theorem writeSp_v (a : Word) : (s.writeSp a).v = s.v := rfl
@[simp] theorem writeSp_pc (a : Word) : (s.writeSp a).pc = s.pc := rfl
@[simp] theorem writeSp_i (a : Word) : (s.writeSp a).i = s.i := rfl
@[simp] theorem writeSp_sp (a : Word) : (s.writeSp a).sp = a := rfl
@[simp] theorem writeSp_dt (a : Word) : (s.writeSp a).dt = s.dt := rfl
@[simp] theorem writeSp_st (a : Word) : (s.writeSp a).st = s.st := rfl
@[simp] theorem writeSp_mem (a : Word) : (s.writeSp a).mem = s.mem := rfl
@[simp] theorem writeSp_screen (a : Word) : (s.writeSp a).screen = s.screen := rfl
@[simp] theorem writeSp_keys (a : Word) : (s.writeSp a).keys = s.keys := rfl
@[simp] theorem writeSp_wait (a : Word) : (s.writeSp a).wait = s.wait := rfl
@[simp] theorem writeSp_readable (a : Word) : (s.writeSp a).readable = s.readable := rfl
@[simp] theorem writeSp_writable (a : Word) : (s.writeSp a).writable = s.writable := rfl
@[simp] theorem writeSp_draws (a : Word) : (s.writeSp a).draws = s.draws := rfl
@[simp] theorem writeSp_readV (a : Word) (r : Reg) : (s.writeSp a).readV r = s.readV r := rfl
@[simp] theorem writeSp_keyPressed (a : Word) (k : Fin 16) : (s.writeSp a).keyPressed k = s.keyPressed k := rfl

/-! ### `State.writeDt` -/

@[simp] theorem writeDt_v (b : Byte) : (s.writeDt b).v = s.v := rfl
@[simp] theorem writeDt_pc (b : Byte) : (s.writeDt b).pc = s.pc := rfl
@[simp] theorem writeDt_i (b : Byte) : (s.writeDt b).i = s.i := rfl
@[simp] theorem writeDt_sp (b : Byte) : (s.writeDt b).sp = s.sp := rfl
@[simp] theorem writeDt_dt (b : Byte) : (s.writeDt b).dt = b := rfl
@[simp] theorem writeDt_st (b : Byte) : (s.writeDt b).st = s.st := rfl
@[simp] theorem writeDt_mem (b : Byte) : (s.writeDt b).mem = s.mem := rfl
@[simp] theorem writeDt_screen (b : Byte) : (s.writeDt b).screen = s.screen := rfl
@[simp] theorem writeDt_keys (b : Byte) : (s.writeDt b).keys = s.keys := rfl
@[simp] theorem writeDt_wait (b : Byte) : (s.writeDt b).wait = s.wait := rfl
@[simp] theorem writeDt_readable (b : Byte) : (s.writeDt b).readable = s.readable := rfl
@[simp] theorem writeDt_writable (b : Byte) : (s.writeDt b).writable = s.writable := rfl
@[simp] theorem writeDt_draws (b : Byte) : (s.writeDt b).draws = s.draws := rfl
@[simp] theorem writeDt_readV (b : Byte) (r : Reg) : (s.writeDt b).readV r = s.readV r := rfl
@[simp] theorem writeDt_keyPressed (b : Byte) (k : Fin 16) : (s.writeDt b).keyPressed k = s.keyPressed k := rfl

/-! ### `State.writeSt` -/

@[simp] theorem writeSt_v (b : Byte) : (s.writeSt b).v = s.v := rfl
@[simp] theorem writeSt_pc (b : Byte) : (s.writeSt b).pc = s.pc := rfl
@[simp] theorem writeSt_i (b : Byte) : (s.writeSt b).i = s.i := rfl
@[simp] theorem writeSt_sp (b : Byte) : (s.writeSt b).sp = s.sp := rfl
@[simp] theorem writeSt_dt (b : Byte) : (s.writeSt b).dt = s.dt := rfl
@[simp] theorem writeSt_st (b : Byte) : (s.writeSt b).st = b := rfl
@[simp] theorem writeSt_mem (b : Byte) : (s.writeSt b).mem = s.mem := rfl
@[simp] theorem writeSt_screen (b : Byte) : (s.writeSt b).screen = s.screen := rfl
@[simp] theorem writeSt_keys (b : Byte) : (s.writeSt b).keys = s.keys := rfl
@[simp] theorem writeSt_wait (b : Byte) : (s.writeSt b).wait = s.wait := rfl
@[simp] theorem writeSt_readable (b : Byte) : (s.writeSt b).readable = s.readable := rfl
@[simp] theorem writeSt_writable (b : Byte) : (s.writeSt b).writable = s.writable := rfl
@[simp] theorem writeSt_draws (b : Byte) : (s.writeSt b).draws = s.draws := rfl
@[simp] theorem writeSt_readV (b : Byte) (r : Reg) : (s.writeSt b).readV r = s.readV r := rfl
@[simp] theorem writeSt_keyPressed (b : Byte) (k : Fin 16) : (s.writeSt b).keyPressed k = s.keyPressed k := rfl

/-! ### `State.writeScreen` -/

@[simp] theorem writeScreen_v (p : Screen) : (s.writeScreen p).v = s.v := rfl
@[simp] theorem writeScreen_pc (p : Screen) : (s.writeScreen p).pc = s.pc := rfl
@[simp] theorem writeScreen_i (p : Screen) : (s.writeScreen p).i = s.i := rfl
@[simp] theorem writeScreen_sp (p : Screen) : (s.writeScreen p).sp = s.sp := rfl
@[simp] theorem writeScreen_dt (p : Screen) : (s.writeScreen p).dt = s.dt := rfl
@[simp] theorem writeScreen_st (p : Screen) : (s.writeScreen p).st = s.st := rfl
@[simp] theorem writeScreen_mem (p : Screen) : (s.writeScreen p).mem = s.mem := rfl
@[simp] theorem writeScreen_screen (p : Screen) : (s.writeScreen p).screen = p := rfl
@[simp] theorem writeScreen_keys (p : Screen) : (s.writeScreen p).keys = s.keys := rfl
@[simp] theorem writeScreen_wait (p : Screen) : (s.writeScreen p).wait = s.wait := rfl
@[simp] theorem writeScreen_readable (p : Screen) : (s.writeScreen p).readable = s.readable := rfl
@[simp] theorem writeScreen_writable (p : Screen) : (s.writeScreen p).writable = s.writable := rfl
@[simp] theorem writeScreen_draws (p : Screen) : (s.writeScreen p).draws = s.draws := rfl
@[simp] theorem writeScreen_readV (p : Screen) (r : Reg) : (s.writeScreen p).readV r = s.readV r := rfl
@[simp] theorem writeScreen_keyPressed (p : Screen) (k : Fin 16) : (s.writeScreen p).keyPressed k = s.keyPressed k := rfl

/-! ### `State.armWait` -/

@[simp] theorem armWait_v (t : Reg) : (s.armWait t).v = s.v := rfl
@[simp] theorem armWait_pc (t : Reg) : (s.armWait t).pc = s.pc := rfl
@[simp] theorem armWait_i (t : Reg) : (s.armWait t).i = s.i := rfl
@[simp] theorem armWait_sp (t : Reg) : (s.armWait t).sp = s.sp := rfl
@[simp] theorem armWait_dt (t : Reg) : (s.armWait t).dt = s.dt := rfl
@[simp] theorem armWait_st (t : Reg) : (s.armWait t).st = s.st := rfl
@[simp] theorem armWait_mem (t : Reg) : (s.armWait t).mem = s.mem := rfl
@[simp] theorem armWait_screen (t : Reg) : (s.armWait t).screen = s.screen := rfl
@[simp] theorem armWait_keys (t : Reg) : (s.armWait t).keys = s.keys := rfl
@[simp] theorem armWait_wait (t : Reg) : (s.armWait t).wait = ⟨t, true⟩ := rfl
@[simp] theorem armWait_readable (t : Reg) : (s.armWait t).readable = s.readable := rfl
@[simp] theorem armWait_writable (t : Reg) : (s.armWait t).writable = s.writable := rfl
@[simp] theorem armWait_draws (t : Reg) : (s.armWait t).draws = s.draws := rfl
@[simp] theorem armWait_readV (t : Reg) (r : Reg) : (s.armWait t).readV r = s.readV r := rfl
@[simp] theorem armWait_keyPressed (t : Reg) (k : Fin 16) : (s.armWait t).keyPressed k = s.keyPressed k := rfl

/-! ### `State.drawn` -/

@[simp] theorem drawn_v : s.drawn.v = s.v := rfl
@[simp] theorem drawn_pc : s.drawn.pc = s.pc := rfl
@[simp] theorem drawn_i : s.drawn.i = s.i := rfl
@[simp] theorem drawn_sp : s.drawn.sp = s.sp := rfl
@[simp] theorem drawn_dt : s.drawn.dt = s.dt := rfl
@[simp] theorem drawn_st : s.drawn.st = s.st := rfl
@[simp] theorem drawn_mem : s.drawn.mem = s.mem := rfl
@[simp] theorem drawn_screen : s.drawn.screen = s.screen := rfl
@[simp] theorem drawn_keys : s.drawn.keys = s.keys := rfl
@[simp] theorem drawn_wait : s.drawn.wait = s.wait := rfl
@[simp] theorem drawn_readable : s.drawn.readable = s.readable := rfl
@[simp] theorem drawn_writable : s.drawn.writable = s.writable := rfl
@[simp] theorem drawn_draws : s.drawn.draws = s.draws + 1 := rfl
@[simp] theorem drawn_readV (r : Reg) : s.drawn.readV r = s.readV r := rfl
@[simp] theorem drawn_keyPressed (k : Fin 16) : s.drawn.keyPressed k = s.keyPressed k := rfl

/-! ### The general registers -/

theorem readV_writeV (x r : Reg) (b : Byte) : (s.writeV x b).readV r = if x = r then b else s.readV r := by
  simp only [State.readV, State.writeV, Fin.getElem_fin, Vector.getElem_set, Fin.ext_iff]

@[simp] theorem readV_writeV_self (x : Reg) (b : Byte) : (s.writeV x b).readV x = b := by
  simp [readV_writeV]

@[simp] theorem readV_writeV_ne {x r : Reg} (b : Byte) (h : x ≠ r) : (s.writeV x b).readV r = s.readV r := by
  simp [readV_writeV, h]

/-- Two register files that read the same are the same. -/
theorem v_ext {s t : State} (h : ∀ r, s.readV r = t.readV r) : s.v = t.v := by
  ext k hk
  have := h ⟨k, hk⟩
  simp only [State.readV, Fin.getElem_fin] at this
  rw [this]

/-- A state is its fields. -/
theorem state_ext {s t : State} (hv : ∀ r, s.readV r = t.readV r) (hpc : s.pc = t.pc) (hi : s.i = t.i)
    (hsp : s.sp = t.sp) (hdt : s.dt = t.dt) (hst : s.st = t.st) (hmem : s.mem = t.mem)
    (hscr : s.screen = t.screen) (hkeys : s.keys = t.keys) (hwait : s.wait = t.wait)
    (hr : s.readable = t.readable) (hw : s.writable = t.writable) (hd : s.draws = t.draws) : s = t := by
  have := v_ext hv
  cases s
  cases t
  simp_all

end Sys2Proof.Machine
end

