-- ==== Sys2Proof/Laws/Bus.lean ====
section
/-! SUPPORT. The Address Bus and the sequences of accesses: what one access can do, and once for each shared operation
(`storeBytes`, `loadRegs`) everything it can do. -/

namespace Sys2Proof.Machine

/-! ### Routing -/

/-- In a valid registry, an address is routed to the entry that contains it (R63: the scan order changes nothing). -/
theorem route_of_contains {es : List BusEntry} (hv : registryValid es) {e : BusEntry} (he : e ∈ es) {a : Nat}
    (hl : e.lower ≤ a) (hu : a < e.upper) : route es a = some (e.dev, a - e.lower) := by
  have ha : e.contains a = true := by simp [BusEntry.contains, hl, hu]
  cases hf : es.find? (·.contains a) with
  | none => exact absurd ha (List.find?_eq_none.1 hf e he)
  | some q =>
    suffices q = e by simp [route, hf, this]
    have hq := List.find?_some hf
    by_contra hne
    have hc : q.conflicts e = false ∨ e.conflicts q = false := by
      obtain ⟨i, hi, rfl⟩ := List.getElem_of_mem (List.mem_of_find?_eq_some hf)
      obtain ⟨j, hj, rfl⟩ := List.getElem_of_mem he
      rcases Nat.lt_trichotomy i j with h | h | h
      · exact .inl (List.pairwise_iff_getElem.1 hv.2 i j hi hj h)
      · subst h; exact absurd rfl hne
      · exact .inr (List.pairwise_iff_getElem.1 hv.2 j i hj hi h)
    simp only [BusEntry.contains, BusEntry.conflicts, Bool.and_eq_true, Bool.and_eq_false_iff, decide_eq_true_eq,
      decide_eq_false_iff_not] at hq hc
    omega

/-- An address that no entry contains is routed nowhere (R63, R64). -/
theorem route_of_not_contains {es : List BusEntry} {a : Nat} (h : ∀ e ∈ es, ¬ (e.lower ≤ a ∧ a < e.upper)) :
    route es a = none := by
  rw [route, List.find?_eq_none.2 fun e he => by simpa [BusEntry.contains] using h e he]
  rfl

/-! ### One read -/

/-- Everything a bus read can answer (R63, R65). -/
theorem busRead_cases (s : State) (a : Nat) :
    (∃ dev l, route s.readable a = some (dev, l) ∧ l < s.capacity dev ∧ s.canRead a = true ∧
      s.busRead a = .ok (match dev with | .memory => s.mem.byteAt l | .screen => s.screen.byteAt l)) ∨
    (∃ dev l, route s.readable a = some (dev, l) ∧ s.capacity dev ≤ l ∧ s.canRead a = false ∧
      s.busRead a = .error (.outOfRange dev l)) ∨
    (route s.readable a = none ∧ s.canRead a = false ∧ s.busRead a = .error (.unmapped .read a)) := by
  unfold State.busRead State.canRead
  cases hr : route s.readable a with
  | none => simp
  | some p =>
    obtain ⟨dev, l⟩ := p
    cases dev <;> simp only [State.deviceRead, Memory.read, Screen.read, State.capacity]
    · by_cases h : l < s.mem.size
      · exact .inl ⟨.memory, l, rfl, h, by simp [h], by simp [h]⟩
      · exact .inr (.inl ⟨.memory, l, rfl, by simpa using h, by simp [h], by simp [h]⟩)
    · by_cases h : l < 256
      · exact .inl ⟨.screen, l, rfl, h, by simp [h], by simp [h]⟩
      · exact .inr (.inl ⟨.screen, l, rfl, by simpa using h, by simp [h], by simp [h]⟩)

theorem canRead_iff (s : State) (a : Nat) : s.canRead a = true ↔ ∃ b, s.busRead a = .ok b := by
  rcases busRead_cases s a with ⟨dev, l, -, -, h, hb⟩ | ⟨dev, l, -, -, h, hb⟩ | ⟨-, h, hb⟩ <;> simp [h, hb]

/-- A read depends on the readable registry, the memory and the screen alone. -/
theorem busRead_congr {s t : State} (hr : t.readable = s.readable) (hm : t.mem = s.mem) (hs : t.screen = s.screen)
    (a : Nat) : t.busRead a = s.busRead a := by
  simp only [State.busRead, State.deviceRead, hr, hm, hs]

@[simp] theorem busRead_writeV (s : State) (x : Reg) (b : Byte) (a : Nat) : (s.writeV x b).busRead a = s.busRead a := rfl
@[simp] theorem busRead_writePc (s : State) (p : Word) (a : Nat) : (s.writePc p).busRead a = s.busRead a := rfl
@[simp] theorem busRead_writeSp (s : State) (p : Word) (a : Nat) : (s.writeSp p).busRead a = s.busRead a := rfl

/-! ### One write -/

/-- Everything a bus write can answer (R64, R65). -/
theorem busWrite_cases (s : State) (a : Nat) (b : Byte) :
    (∃ l, route s.writable a = some (.memory, l) ∧ l < s.mem.size ∧ s.canWrite a = true ∧
      s.busWrite a b = .ok { s with mem := s.mem.setByte l b }) ∨
    (∃ l, route s.writable a = some (.screen, l) ∧ l < 256 ∧ s.canWrite a = true ∧
      s.busWrite a b = .ok { s with screen := s.screen.xorByte l b }) ∨
    (∃ dev l, route s.writable a = some (dev, l) ∧ s.capacity dev ≤ l ∧ s.canWrite a = false ∧
      s.busWrite a b = .error (.outOfRange dev l)) ∨
    (route s.writable a = none ∧ s.canWrite a = false ∧ s.busWrite a b = .error (.unmapped .write a)) := by
  unfold State.busWrite State.canWrite
  cases hr : route s.writable a with
  | none => simp
  | some p =>
    obtain ⟨dev, l⟩ := p
    cases dev <;> simp only [State.deviceWrite, Memory.write, Screen.write, State.capacity]
    · by_cases h : l < s.mem.size
      · exact .inl ⟨l, rfl, h, by simp [h], by simp [h]⟩
      · exact .inr (.inr (.inl ⟨.memory, l, rfl, by simpa using h, by simp [h], by simp [h]⟩))
    · by_cases h : l < 256
      · exact .inr (.inl ⟨l, rfl, h, by simp [h], by simp [h]⟩)
      · exact .inr (.inr (.inl ⟨.screen, l, rfl, by simpa using h, by simp [h], by simp [h]⟩))

theorem canWrite_iff (s : State) (a : Nat) (b : Byte) : s.canWrite a = true ↔ ∃ t, s.busWrite a b = .ok t := by
  rcases busWrite_cases s a b with ⟨l, -, -, h, hb⟩ | ⟨l, -, -, h, hb⟩ | ⟨dev, l, -, -, h, hb⟩ | ⟨-, h, hb⟩ <;>
    simp [h, hb]

/-- A write changes memory or the screen and nothing else. -/
theorem busWrite_rest {s t : State} {a : Nat} {b : Byte} (h : s.busWrite a b = .ok t) :
    t = { s with mem := t.mem, screen := t.screen } := by
  rcases busWrite_cases s a b with ⟨l, -, -, -, hb⟩ | ⟨l, -, -, -, hb⟩ | ⟨dev, l, -, -, -, hb⟩ | ⟨-, -, hb⟩ <;>
    rw [hb] at h <;> cases h <;> rfl

/-- A write keeps the memory canonical and its capacity. -/
theorem busWrite_wf {s t : State} {a : Nat} {b : Byte} (hw : s.mem.wf) (h : s.busWrite a b = .ok t) :
    t.mem.wf ∧ t.mem.size = s.mem.size := by
  rcases busWrite_cases s a b with ⟨l, -, hl, -, hb⟩ | ⟨l, -, -, -, hb⟩ | ⟨dev, l, -, -, -, hb⟩ | ⟨-, -, hb⟩ <;>
    rw [hb] at h <;> cases h
  · exact ⟨setByte_wf hw b hl, rfl⟩
  · exact ⟨hw, rfl⟩

/-- A write changes no capacity, so it changes no later access's success. -/
theorem canWrite_busWrite {s t : State} {a : Nat} {b : Byte} (h : s.busWrite a b = .ok t) (x : Nat) :
    t.canWrite x = s.canWrite x := by
  rcases busWrite_cases s a b with ⟨l, -, -, -, hb⟩ | ⟨l, -, -, -, hb⟩ | ⟨dev, l, -, -, -, hb⟩ | ⟨-, -, hb⟩ <;>
    rw [hb] at h <;> cases h <;> rfl

/-- What every byte of the devices is after one write. -/
theorem busWrite_stored {s t : State} {a : Nat} {b : Byte} (hw : s.mem.wf) (h : s.busWrite a b = .ok t) :
    (∀ m, t.mem.byteAt m = if route s.writable a = some (.memory, m) then b else s.mem.byteAt m) ∧
    ∀ k, k < 256 → t.screen.byteAt k =
      if route s.writable a = some (.screen, k) then s.screen.byteAt k ^^^ b else s.screen.byteAt k := by
  rcases busWrite_cases s a b with ⟨l, hr, -, -, hb⟩ | ⟨l, hr, hl, -, hb⟩ | ⟨dev, l, -, -, -, hb⟩ | ⟨-, -, hb⟩ <;>
    rw [hb] at h <;> cases h
  · refine ⟨fun m => ?_, fun k _ => ?_⟩
    · simp [hr, byteAt_setByte hw]
    · simp [hr]
  · refine ⟨fun m => ?_, fun k hk => ?_⟩
    · simp [hr]
    · simp [hr, byteAt_xorByte _ hk hl]

/-! ### Bytes left by stores -/

@[simp] theorem memoryAfter_nil (w : List BusEntry) (m : Nat) (old : Byte) : memoryAfter w [] m old = old := rfl

@[simp] theorem memoryAfter_cons (w : List BusEntry) (p : Nat × Byte) (rest : List (Nat × Byte)) (m : Nat) (old : Byte) :
    memoryAfter w (p :: rest) m old =
      memoryAfter w rest m (if route w p.1 = some (.memory, m) then p.2 else old) := rfl

@[simp] theorem screenAfter_nil (w : List BusEntry) (k : Nat) (old : Byte) : screenAfter w [] k old = old := rfl

@[simp] theorem screenAfter_cons (w : List BusEntry) (p : Nat × Byte) (rest : List (Nat × Byte)) (k : Nat) (old : Byte) :
    screenAfter w (p :: rest) k old =
      screenAfter w rest k (if route w p.1 = some (.screen, k) then old ^^^ p.2 else old) := rfl

/-- A byte no store is routed to stays. -/
theorem memoryAfter_untouched {w : List BusEntry} {stores : List (Nat × Byte)} {m : Nat} (old : Byte)
    (h : ∀ p ∈ stores, route w p.1 ≠ some (.memory, m)) : memoryAfter w stores m old = old := by
  induction stores generalizing old with
  | nil => rfl
  | cons p rest ih =>
    simp only [memoryAfter_cons, h p (by simp), if_false]
    exact ih old fun q hq => h q (by simp [hq])

theorem screenAfter_untouched {w : List BusEntry} {stores : List (Nat × Byte)} {k : Nat} (old : Byte)
    (h : ∀ p ∈ stores, route w p.1 ≠ some (.screen, k)) : screenAfter w stores k old = old := by
  induction stores generalizing old with
  | nil => rfl
  | cons p rest ih =>
    simp only [screenAfter_cons, h p (by simp), if_false]
    exact ih old fun q hq => h q (by simp [hq])

/-- Two states whose memories and screens differ only where no read of `a` is routed read the same at `a`. -/
theorem busRead_same_of_cell {s t : State} (hr : t.readable = s.readable) (hsize : t.mem.size = s.mem.size) {a : Nat}
    (hm : ∀ m, route s.readable a = some (.memory, m) → t.mem.byteAt m = s.mem.byteAt m)
    (hk : ∀ k, k < 256 → route s.readable a = some (.screen, k) → t.screen.byteAt k = s.screen.byteAt k) :
    t.busRead a = s.busRead a := by
  unfold State.busRead
  rw [hr]
  cases h : route s.readable a with
  | none => rfl
  | some p =>
    obtain ⟨dev, l⟩ := p
    cases dev
    · simp only [State.deviceRead, Memory.read, hsize, hm l h]
    · simp only [State.deviceRead, Screen.read]
      split
      · next hl => rw [hk l hl h]
      · rfl

/-! ### `storeBytes` -/

/-- Stores to writable addresses answer a next state, in which they and nothing else are done. -/
theorem storeBytes_next {s : State} (hw : s.mem.wf) {stores : List (Nat × Byte)} (h : AllWritable stores s) :
    ∃ t, storeBytes stores s = .next t ∧ t = { s with mem := t.mem, screen := t.screen } ∧ t.mem.wf ∧
      Stored stores s t := by
  suffices hs : ∃ t, storeBytes stores s = .next t ∧ t = { s with mem := t.mem, screen := t.screen } ∧ t.mem.wf ∧
      t.mem.size = s.mem.size ∧
      (∀ m, t.mem.byteAt m = memoryAfter s.writable stores m (s.mem.byteAt m)) ∧
      ∀ k, k < 256 → t.screen.byteAt k = screenAfter s.writable stores k (s.screen.byteAt k) by
    obtain ⟨t, ht, hrest, hwf, hsize, hm, hk⟩ := hs
    refine ⟨t, ht, hrest, hwf, hsize, hm, hk, fun a ha => ?_⟩
    have hr : t.readable = s.readable := by rw [hrest]
    refine busRead_same_of_cell hr hsize (fun m hrt => ?_) fun k hlt hrt => ?_
    · rw [hm, memoryAfter_untouched]
      exact fun p hp hw => ha p hp (by rw [hrt, hw])
    · rw [hk k hlt, screenAfter_untouched]
      exact fun p hp hw => ha p hp (by rw [hrt, hw])
  induction stores generalizing s with
  | nil => exact ⟨s, rfl, rfl, hw, rfl, fun _ => rfl, fun _ _ => rfl⟩
  | cons p rest ih =>
    obtain ⟨a, b⟩ := p
    obtain ⟨u, hu⟩ := (canWrite_iff s a b).1 (h (a, b) (by simp))
    have hur := busWrite_rest hu
    have huw : u.writable = s.writable := by rw [hur]
    obtain ⟨hwf, hsize⟩ := busWrite_wf hw hu
    obtain ⟨hum, huk⟩ := busWrite_stored hw hu
    obtain ⟨t, ht, hrest, htw, hts, htm, htk⟩ := ih hwf fun q hq => by
      rw [canWrite_busWrite hu]; exact h q (by simp [hq])
    refine ⟨t, by simp [storeBytes, hu, ht], ?_, htw, hts.trans hsize, fun m => ?_, fun k hk => ?_⟩
    · rw [hrest, hur]
    · rw [htm, hum, huw]; rfl
    · rw [htk k hk, huk k hk, huw]; rfl

/-- The first store to an address that cannot be written raises its error, with the stores before it done. -/
theorem storeBytes_fault {s : State} (hw : s.mem.wf) {done rest : List (Nat × Byte)} {a : Nat} {b : Byte}
    (h : AllWritable done s) (ha : s.canWrite a = false) :
    ∃ t e, storeBytes (done ++ (a, b) :: rest) s = .fault (e.toFault t) ∧ s.busWrite a b = .error e ∧
      storeBytes done s = .next t := by
  induction done generalizing s with
  | nil =>
    have : ∃ e, s.busWrite a b = .error e := by
      rcases busWrite_cases s a b with ⟨l, -, -, h, -⟩ | ⟨l, -, -, h, -⟩ | ⟨dev, l, -, -, -, hb⟩ | ⟨-, -, hb⟩
      · rw [h] at ha; cases ha
      · rw [h] at ha; cases ha
      · exact ⟨_, hb⟩
      · exact ⟨_, hb⟩
    obtain ⟨e, he⟩ := this
    exact ⟨s, e, by simp [storeBytes, he, raise], he, rfl⟩
  | cons p done ih =>
    obtain ⟨c, d⟩ := p
    obtain ⟨u, hu⟩ := (canWrite_iff s c d).1 (h (c, d) (by simp))
    have hua : u.canWrite a = false := by rw [canWrite_busWrite hu, ha]
    obtain ⟨t, e, h1, h2, h3⟩ := ih (busWrite_wf hw hu).1
      (fun q hq => by rw [canWrite_busWrite hu]; exact h q (by simp [hq])) hua
    refine ⟨t, e, by simp [storeBytes, hu, h1], ?_, by simp [storeBytes, hu, h3]⟩
    have hur := busWrite_rest hu
    have huw : u.writable = s.writable := by rw [hur]
    have huc : ∀ dev, u.capacity dev = s.capacity dev := by
      rintro (_ | _)
      · exact (busWrite_wf hw hu).2
      · rfl
    rcases busWrite_cases u a b with ⟨l, -, -, h, -⟩ | ⟨l, -, -, h, -⟩ | ⟨dev, l, hr, hl, -, hb⟩ | ⟨hr, -, hb⟩
    · rw [h] at hua; cases hua
    · rw [h] at hua; cases hua
    · rw [huw] at hr
      rw [huc] at hl
      rw [hb] at h2
      cases h2
      rcases busWrite_cases s a b with ⟨l', hr', hl', -, -⟩ | ⟨l', hr', hl', -, -⟩ | ⟨dev', l', hr', -, -, hb'⟩ | ⟨hr', -, -⟩
      · rw [hr] at hr'; cases hr'; exact absurd hl' (by simpa [State.capacity] using hl)
      · rw [hr] at hr'; cases hr'; exact absurd hl' (by simpa [State.capacity] using hl)
      · rw [hr] at hr'; cases hr'; exact hb'
      · rw [hr] at hr'; cases hr'
    · rw [huw] at hr
      rw [hb] at h2
      cases h2
      rcases busWrite_cases s a b with ⟨l', hr', -, -, -⟩ | ⟨l', hr', -, -, -⟩ | ⟨dev', l', hr', -, -, -⟩ | ⟨hr', -, hb'⟩
      · rw [hr] at hr'; cases hr'
      · rw [hr] at hr'; cases hr'
      · rw [hr] at hr'; cases hr'
      · exact hb'

/-- Everything `storeBytes` can answer: all stores are done, or the first that cannot be done raises its error. It never
refuses. -/
theorem storeBytes_cases {s : State} (hw : s.mem.wf) (stores : List (Nat × Byte)) :
    (AllWritable stores s ∧ ∃ t, storeBytes stores s = .next t) ∨
    ∃ done a b rest t e, stores = done ++ (a, b) :: rest ∧ AllWritable done s ∧ s.canWrite a = false ∧
      storeBytes stores s = .fault (e.toFault t) ∧ s.busWrite a b = .error e ∧ storeBytes done s = .next t := by
  by_cases h : AllWritable stores s
  · obtain ⟨t, ht, -⟩ := storeBytes_next hw h
    exact .inl ⟨h, t, ht⟩
  · right
    have : ∃ done a b rest, stores = done ++ (a, b) :: rest ∧ AllWritable done s ∧ s.canWrite a = false := by
      clear hw
      induction stores with
      | nil => simp at h
      | cons p rest ih =>
        by_cases hp : s.canWrite p.1 = true
        · have hrest : ¬ AllWritable rest s := fun hr => h fun q hq => by
            rcases List.mem_cons.1 hq with rfl | hq
            · exact hp
            · exact hr q hq
          obtain ⟨done, a, b, rest', rfl, hd, ha⟩ := ih hrest
          refine ⟨p :: done, a, b, rest', rfl, fun q hq => ?_, ha⟩
          rcases List.mem_cons.1 hq with rfl | hq
          · exact hp
          · exact hd q hq
        · exact ⟨[], p.1, p.2, rest, rfl, by simp, by simpa using hp⟩
    obtain ⟨done, a, b, rest, rfl, hd, ha⟩ := this
    obtain ⟨t, e, h1, h2, h3⟩ := storeBytes_fault (b := b) (rest := rest) hw hd ha
    exact ⟨done, a, b, rest, t, e, rfl, hd, ha, h1, h2, h3⟩

/-! ### `loadRegs` -/

/-- Loads from readable addresses answer a next state in which each listed register holds its byte. -/
theorem loadRegs_next {s : State} {regs : List Reg} (h : ∀ k ∈ regs, s.canRead (s.indexAddress k.val) = true) :
    ∃ t, loadRegs regs s = .next t ∧ t = { s with v := t.v } ∧
      (∀ k ∈ regs, s.busRead (s.indexAddress k.val) = .ok (t.readV k)) ∧ ∀ r, r ∉ regs → t.readV r = s.readV r := by
  induction regs generalizing s with
  | nil => exact ⟨s, rfl, rfl, by simp, by simp⟩
  | cons k rest ih =>
    obtain ⟨b, hb⟩ := (canRead_iff s _).1 (h k (by simp))
    obtain ⟨t, ht, hrest, hin, hout⟩ := ih (s := s.writeV k b) fun j hj => h j (by simp [hj])
    refine ⟨t, by simp [loadRegs, withByte, hb, ht], by rw [hrest]; rfl, fun j hj => ?_, fun r hr => ?_⟩
    · by_cases hjr : j ∈ rest
      · exact hin j hjr
      · have hjk : j = k := by simpa [hjr] using hj
        subst hjk
        rw [hout j hjr, readV_writeV_self]
        exact hb
    · have hrk : k ≠ r := fun h => hr (by simp [h])
      have hrr : r ∉ rest := fun h => hr (by simp [h])
      rw [hout r hrr, readV_writeV_ne _ _ hrk]

/-- The first load from an address that cannot be read raises its error, with the loads before it done. -/
theorem loadRegs_fault {s : State} {done rest : List Reg} {k : Reg}
    (h : ∀ j ∈ done, s.canRead (s.indexAddress j.val) = true) (hk : s.canRead (s.indexAddress k.val) = false) :
    ∃ t e, loadRegs (done ++ k :: rest) s = .fault (e.toFault t) ∧ s.busRead (s.indexAddress k.val) = .error e ∧
      loadRegs done s = .next t := by
  induction done generalizing s with
  | nil =>
    have : ∃ e, s.busRead (s.indexAddress k.val) = .error e := by
      rcases busRead_cases s (s.indexAddress k.val) with ⟨_, _, -, -, h, -⟩ | ⟨_, _, -, -, -, hb⟩ | ⟨-, -, hb⟩
      · rw [h] at hk; cases hk
      · exact ⟨_, hb⟩
      · exact ⟨_, hb⟩
    obtain ⟨e, he⟩ := this
    exact ⟨s, e, by simp [loadRegs, withByte, he, raise], he, rfl⟩
  | cons j done ih =>
    obtain ⟨b, hb⟩ := (canRead_iff s _).1 (h j (by simp))
    obtain ⟨t, e, h1, h2, h3⟩ := ih (s := s.writeV j b) (fun i hi => h i (by simp [hi])) hk
    exact ⟨t, e, by simp [loadRegs, withByte, hb, h1], h2, by simp [loadRegs, withByte, hb, h3]⟩

theorem mem_regsUpTo (x k : Reg) : k ∈ regsUpTo x ↔ k.val ≤ x.val := by
  have hx := x.isLt
  have hk := k.isLt
  simp only [regsUpTo, List.mem_map, List.mem_range]
  constructor
  · rintro ⟨n, hn, rfl⟩
    simp only [Fin.val_ofNat]
    omega
  · intro h
    exact ⟨k.val, by omega, by apply Fin.ext; simp⟩

/-! ### What the sequences leave, next state or error -/

/-- Whatever `storeBytes` answers, the state it leaves differs in memory and screen alone, with the capacity and the
canonical form kept. -/
theorem storeBytes_leaves (stores : List (Nat × Byte)) (s : State) :
    ∃ t, (storeBytes stores s = .next t ∨ ∃ a b e, storeBytes stores s = .fault (AccessError.toFault e t) ∧
        t.busWrite a b = .error e) ∧
      t = { s with mem := t.mem, screen := t.screen } ∧ t.mem.size = s.mem.size ∧ (s.mem.wf → t.mem.wf) := by
  induction stores generalizing s with
  | nil => exact ⟨s, .inl rfl, rfl, rfl, id⟩
  | cons p rest ih =>
    obtain ⟨a, b⟩ := p
    simp only [storeBytes]
    cases h : s.busWrite a b with
    | ok u =>
      obtain ⟨t, h1, h2, h3, h4⟩ := ih u
      have hu := busWrite_rest h
      have hsize : u.mem.size = s.mem.size := by
        rcases busWrite_cases s a b with ⟨l, -, -, -, hb⟩ | ⟨l, -, -, -, hb⟩ | ⟨dev, l, -, -, -, hb⟩ | ⟨-, -, hb⟩ <;>
          rw [hb] at h <;> cases h <;> rfl
      exact ⟨t, h1, by rw [h2, hu], h3.trans hsize, fun hw => h4 (busWrite_wf hw h).1⟩
    | error e => exact ⟨s, .inr ⟨a, b, e, rfl, h⟩, rfl, rfl, id⟩

/-- Whatever `loadRegs` answers, the state it leaves differs in the general registers alone. -/
theorem loadRegs_leaves (regs : List Reg) (s : State) :
    ∃ t, (loadRegs regs s = .next t ∨ ∃ a e, loadRegs regs s = .fault (AccessError.toFault e t) ∧
        t.busRead a = .error e) ∧ t = { s with v := t.v } := by
  induction regs generalizing s with
  | nil => exact ⟨s, .inl rfl, rfl⟩
  | cons k rest ih =>
    simp only [loadRegs, withByte]
    cases h : s.busRead (s.indexAddress k.val) with
    | ok b =>
      obtain ⟨t, h1, h2⟩ := ih (s.writeV k b)
      exact ⟨t, h1, by rw [h2]; rfl⟩
    | error e => exact ⟨s, .inr ⟨_, e, rfl, h⟩, rfl⟩

end Sys2Proof.Machine
end

