-- ==== Sys2Proof/Laws/Decode.lean ====
section
/-! SUPPORT. The two bytes of a word, the opcode map's masks as arithmetic on the word's number, and the encoded words as
numbers. -/

namespace Sys2Proof

/-! ### Bytes of a word -/

theorem hiByte_toNat (w : Word) : (hiByte w).toNat = w.toNat / 256 := by
  have := w.isLt
  simp only [hiByte, BitVec.extractLsb'_toNat, Nat.shiftRight_eq_div_pow]
  omega

theorem loByte_toNat (w : Word) : (loByte w).toNat = w.toNat % 256 := by
  simp only [loByte, BitVec.extractLsb'_toNat, Nat.shiftRight_eq_div_pow]
  omega

theorem wordOfBytes_toNat (hi lo : Byte) : (wordOfBytes hi lo).toNat = hi.toNat * 256 + lo.toNat := by
  have := lo.isLt
  simp only [wordOfBytes, BitVec.toNat_append]
  rw [← Nat.shiftLeft_add_eq_or_of_lt (by omega), Nat.shiftLeft_eq]

@[simp] theorem hiByte_wordOfBytes (hi lo : Byte) : hiByte (wordOfBytes hi lo) = hi := by
  have := lo.isLt
  apply BitVec.eq_of_toNat_eq
  rw [hiByte_toNat, wordOfBytes_toNat]
  omega

@[simp] theorem loByte_wordOfBytes (hi lo : Byte) : loByte (wordOfBytes hi lo) = lo := by
  have := lo.isLt
  apply BitVec.eq_of_toNat_eq
  rw [loByte_toNat, wordOfBytes_toNat]
  omega

@[simp] theorem wordOfBytes_split (w : Word) : wordOfBytes (hiByte w) (loByte w) = w := by
  apply BitVec.eq_of_toNat_eq
  rw [wordOfBytes_toNat, hiByte_toNat, loByte_toNat]
  omega

/-! ### Masks as arithmetic -/

theorem and_bytes (w m : Word) : w &&& m = wordOfBytes (hiByte w &&& hiByte m) (loByte w &&& loByte m) := by
  simp only [wordOfBytes, hiByte, loByte]
  ext i hi
  rw [BitVec.getElem_append]
  split
  · next h => simp [BitVec.getLsbD_eq_getElem hi]
  · next h => simp [show 8 + (i - 8) = i by omega, BitVec.getLsbD_eq_getElem hi]

theorem byte_and_high (b : Byte) : (b &&& 0xF0).toNat = b.toNat / 16 * 16 := by
  revert b
  decide

theorem byte_and_low (b : Byte) : (b &&& 0x0F).toNat = b.toNat % 16 := by
  revert b
  decide

/-- Mask `F000` keeps the major nibble. -/
theorem and_F000 (w : Word) : (w &&& 0xF000).toNat = w.toNat / 4096 * 4096 := by
  rw [and_bytes, wordOfBytes_toNat, show hiByte 0xF000 = 0xF0 from by decide, show loByte 0xF000 = 0#8 from by decide,
    byte_and_high, hiByte_toNat, BitVec.and_zero, BitVec.toNat_zero]
  omega

/-- Mask `F00F` keeps the major nibble and the lowest. -/
theorem and_F00F (w : Word) : (w &&& 0xF00F).toNat = w.toNat / 4096 * 4096 + w.toNat % 16 := by
  rw [and_bytes, wordOfBytes_toNat, show hiByte 0xF00F = 0xF0 from by decide, show loByte 0xF00F = 0x0F from by decide,
    byte_and_high, byte_and_low, hiByte_toNat, loByte_toNat]
  omega

/-- Mask `F0FF` keeps the major nibble and the low byte. -/
theorem and_F0FF (w : Word) : (w &&& 0xF0FF).toNat = w.toNat / 4096 * 4096 + w.toNat % 256 := by
  rw [and_bytes, wordOfBytes_toNat, show hiByte 0xF0FF = 0xF0 from by decide,
    show loByte 0xF0FF = BitVec.allOnes 8 from by decide, byte_and_high, BitVec.and_allOnes, hiByte_toNat, loByte_toNat]
  omega

/-- Mask `FFFF` keeps everything. -/
theorem and_FFFF (w : Word) : w &&& 0xFFFF = w := by
  rw [show (0xFFFF : Word) = BitVec.allOnes 16 from by decide, BitVec.and_allOnes]

/-- A row covers a word: the masked word's number is the pattern's. -/
theorem covers_iff (r : DecodeRow) (w : Word) : r.covers w = true ↔ (w &&& r.mask).toNat = r.pattern.toNat := by
  simp only [DecodeRow.covers, beq_iff_eq, BitVec.toNat_inj]

/-! ### Encoded words as numbers -/

theorem encodeNnn_toNat {op : Nat} {addr : Word} (hop : op < 16) (h : fitsAddr addr = true) :
    (encodeNnn op addr).toNat = op * 4096 + addr.toNat ∧ addr.toNat < 4096 := by
  have ha : addr.toNat < 4096 := by
    simpa [fitsAddr, BitVec.lt_def] using h
  refine ⟨?_, ha⟩
  simp only [encodeNnn, BitVec.toNat_ofNat]
  omega

theorem encodeXkk_toNat {op : Nat} (hop : op < 16) (x : Reg) (kk : Byte) :
    (encodeXkk op x kk).toNat = op * 4096 + x.val * 256 + kk.toNat := by
  have := x.isLt
  have := kk.isLt
  simp only [encodeXkk, BitVec.toNat_ofNat]
  omega

theorem encodeXyn_toNat {op low : Nat} (hop : op < 16) (hlow : low < 16) (x y : Reg) :
    (encodeXyn op x y low).toNat = op * 4096 + x.val * 256 + y.val * 16 + low := by
  have := x.isLt
  have := y.isLt
  simp only [encodeXyn, BitVec.toNat_ofNat]
  omega

theorem encodeX_toNat {op minor : Nat} (hop : op < 16) (hm : minor < 256) (x : Reg) :
    (encodeX op x minor).toNat = op * 4096 + x.val * 256 + minor := by
  have := x.isLt
  simp only [encodeX, BitVec.toNat_ofNat]
  omega

/-! ### Fields of a word given by its number -/

theorem fieldX_eq {w : Word} {x : Reg} (h : w.toNat / 256 % 16 = x.val) : fieldX w = x :=
  Fin.ext (by simpa only [fieldX, Fin.val_ofNat] using h)

theorem fieldY_eq {w : Word} {y : Reg} (h : w.toNat / 16 % 16 = y.val) : fieldY w = y :=
  Fin.ext (by simpa only [fieldY, Fin.val_ofNat] using h)

theorem fieldKk_eq {w : Word} {kk : Byte} (h : w.toNat % 256 = kk.toNat) : fieldKk w = kk :=
  BitVec.eq_of_toNat_eq (by rw [fieldKk, loByte_toNat, h])

theorem fieldAddr_eq {w addr : Word} {hi : Nat} (hw : w.toNat = hi * 4096 + addr.toNat) (ha : addr.toNat < 4096) :
    fieldAddr w = addr := by
  apply BitVec.eq_of_toNat_eq
  simp only [fieldAddr, BitVec.toNat_ofNat, hw]
  omega

theorem fieldAddr_lt (w : Word) : (fieldAddr w).toNat < 4096 := by
  simp only [fieldAddr, BitVec.toNat_ofNat]
  omega

end Sys2Proof
end

