-- ==== Sys2Proof/Laws/Display.lean ====
section
/-! SUPPORT. Sprite drawing: what one drawn byte does to the pixels and to the collision, and everything `drawRows` can
answer. -/

namespace Sys2Proof.Machine

/-! ### One sprite byte -/

theorem spriteColumn_inj (cx : Byte) {j k : Nat} (hj : j < 8) (hk : k < 8)
    (h : spriteColumn cx j = spriteColumn cx k) : j = k := by
  simp only [spriteColumn, Fin.ext_iff, Fin.val_ofNat] at h
  omega

/-- The screen and the collision after the first `k` bits of a sprite byte. -/
theorem drawBits_prefix (cx : Byte) (r : Fin 32) (sprite : Byte) (p : Screen) (hit : Bool) {k : Nat} (hk : k ≤ 8) :
    (∀ r' c', ((List.range k).foldl (drawBit cx r sprite) (p, hit)).1.getPixel r' c' =
      if r = r' ∧ ∃ j, j < k ∧ spriteColumn cx j = c' ∧ sprite.getLsbD (7 - j) = true
      then !p.getPixel r' c' else p.getPixel r' c') ∧
    (((List.range k).foldl (drawBit cx r sprite) (p, hit)).2 = true ↔
      hit = true ∨ ∃ j, j < k ∧ sprite.getLsbD (7 - j) = true ∧ p.getPixel r (spriteColumn cx j) = true) := by
  induction k with
  | zero => simp
  | succ k ih =>
    obtain ⟨hpix, hhit⟩ := ih (by omega)
    rw [List.range_succ, List.foldl_append]
    simp only [List.foldl_cons, List.foldl_nil, drawBit]
    have hsame : ((List.range k).foldl (drawBit cx r sprite) (p, hit)).1.getPixel r (spriteColumn cx k) =
        p.getPixel r (spriteColumn cx k) := by
      rw [hpix, if_neg]
      rintro ⟨-, j, hj, hcol, -⟩
      have := spriteColumn_inj cx (by omega) (by omega) hcol
      omega
    by_cases hb : sprite.getLsbD (7 - k) = true
    · simp only [hb, if_true]
      refine ⟨fun r' c' => ?_, ?_⟩
      · rw [getPixel_setPixel, hsame]
        by_cases hrc : r = r' ∧ spriteColumn cx k = c'
        · obtain ⟨rfl, rfl⟩ := hrc
          rw [if_pos ⟨rfl, rfl⟩, if_pos ⟨rfl, k, by omega, rfl, hb⟩]
        · rw [if_neg hrc, hpix]
          refine if_congr ?_ rfl rfl
          constructor
          · rintro ⟨h1, j, hj, h2⟩
            exact ⟨h1, j, by omega, h2⟩
          · rintro ⟨h1, j, hj, h2, h3⟩
            refine ⟨h1, j, ?_, h2, h3⟩
            rcases Nat.lt_succ_iff_lt_or_eq.1 hj with hj | rfl
            · exact hj
            · exact absurd ⟨h1, h2⟩ hrc
      · rw [Bool.or_eq_true, hhit, hsame]
        constructor
        · rintro ((h | ⟨j, hj, h1, h2⟩) | h)
          · exact .inl h
          · exact .inr ⟨j, by omega, h1, h2⟩
          · exact .inr ⟨k, by omega, hb, h⟩
        · rintro (h | ⟨j, hj, h1, h2⟩)
          · exact .inl (.inl h)
          · rcases Nat.lt_succ_iff_lt_or_eq.1 hj with hj | rfl
            · exact .inl (.inr ⟨j, hj, h1, h2⟩)
            · exact .inr h2
    · simp only [hb, if_false, Bool.false_eq_true]
      refine ⟨fun r' c' => ?_, ?_⟩
      · rw [hpix]
        refine if_congr ?_ rfl rfl
        constructor
        · rintro ⟨h1, j, hj, h2⟩
          exact ⟨h1, j, by omega, h2⟩
        · rintro ⟨h1, j, hj, h2, h3⟩
          refine ⟨h1, j, ?_, h2, h3⟩
          rcases Nat.lt_succ_iff_lt_or_eq.1 hj with hj | rfl
          · exact hj
          · exact absurd h3 hb
      · rw [hhit]
        constructor
        · rintro (h | ⟨j, hj, h1, h2⟩)
          · exact .inl h
          · exact .inr ⟨j, by omega, h1, h2⟩
        · rintro (h | ⟨j, hj, h1, h2⟩)
          · exact .inl h
          · rcases Nat.lt_succ_iff_lt_or_eq.1 hj with hj | rfl
            · exact .inr ⟨j, hj, h1, h2⟩
            · exact absurd h1 hb

theorem spriteLights_iff (cx cy : Byte) (b : Nat) (sprite : Byte) (r : Fin 32) (c : Fin 64) :
    spriteLights cx cy b sprite r c ↔
      spriteRow cy b = r ∧ ∃ j, j < 8 ∧ spriteColumn cx j = c ∧ sprite.getLsbD (7 - j) = true := by
  simp only [spriteLights, spriteRow, spriteColumn, Fin.ext_iff, Fin.val_ofNat, eq_comm]

/-- A drawn byte turns over the pixels its 1-bits fall on, and no others (R111). -/
theorem drawByte_drawn (cx cy : Byte) (b : Nat) (sprite : Byte) (p : Screen) (hit : Bool) :
    DrawnByte cx cy b sprite p (drawByte cx (spriteRow cy b) sprite (p, hit)).1 := by
  intro r c
  have h := (drawBits_prefix cx (spriteRow cy b) sprite p hit (Nat.le_refl 8)).1 r c
  rw [spriteLights_iff]
  unfold drawByte
  rw [h]
  exact ⟨fun hl => if_pos hl, fun hl => if_neg hl⟩

/-- A drawn byte notes a collision exactly where one of its 1-bits falls on a lit pixel (R112). -/
theorem drawByte_hit (cx cy : Byte) (b : Nat) (sprite : Byte) (p : Screen) (hit : Bool) :
    (drawByte cx (spriteRow cy b) sprite (p, hit)).2 = true ↔ hit = true ∨ CollidesByte cx cy b sprite p := by
  have h := (drawBits_prefix cx (spriteRow cy b) sprite p hit (Nat.le_refl 8)).2
  unfold drawByte
  rw [h]
  refine or_congr Iff.rfl ?_
  constructor
  · rintro ⟨j, hj, h1, h2⟩
    exact ⟨_, _, (spriteLights_iff ..).2 ⟨rfl, j, hj, rfl, h1⟩, h2⟩
  · rintro ⟨r, c, hl, h2⟩
    obtain ⟨rfl, j, hj, rfl, h1⟩ := (spriteLights_iff ..).1 hl
    exact ⟨j, hj, h1, h2⟩

/-- The screen after a drawn byte is determined. -/
theorem drawnByte_unique {cx cy : Byte} {b : Nat} {sprite : Byte} {p q q' : Screen} (h : DrawnByte cx cy b sprite p q)
    (h' : DrawnByte cx cy b sprite p q') : q = q' := by
  refine screen_ext fun r c => ?_
  by_cases hl : spriteLights cx cy b sprite r c
  · rw [(h r c).1 hl, (h' r c).1 hl]
  · rw [(h r c).2 hl, (h' r c).2 hl]

/-! ### `drawRows` -/

theorem collisionFlag_cases (hit : Bool) :
    (hit = true ∧ collisionFlag hit = 1) ∨ (hit = false ∧ collisionFlag hit = 0) := by
  cases hit
  · exact .inr ⟨rfl, rfl⟩
  · exact .inl ⟨rfl, rfl⟩

/-- Rows whose bytes can be read are all drawn, and the collision is written at the end. -/
theorem drawRows_next {cx cy : Byte} {screens : Nat → Screen} {bytes : Nat → Byte} (todo b : Nat) (hit : Bool)
    (s : State) (h0 : screens b = s.screen)
    (hrows : ∀ k, b ≤ k → k < b + todo → (s.writeScreen (screens k)).busRead (s.indexAddress k) = .ok (bytes k) ∧
      DrawnByte cx cy k (bytes k) (screens k) (screens (k + 1))) :
    ∃ hit', drawRows cx cy todo b hit s =
        .next ((s.writeScreen (screens (b + todo))).writeFlag (collisionFlag hit')) ∧
      (hit' = true ↔ hit = true ∨ ∃ k, b ≤ k ∧ k < b + todo ∧ CollidesByte cx cy k (bytes k) (screens k)) := by
  induction todo generalizing b hit s with
  | zero =>
    refine ⟨hit, ?_, ?_⟩
    · simp only [drawRows, Nat.add_zero, h0]
      rfl
    · constructor
      · exact .inl
      · rintro (h | ⟨k, h1, h2, -⟩)
        · exact h
        · omega
  | succ todo ih =>
    obtain ⟨hread, hdrawn⟩ := hrows b (Nat.le_refl b) (by omega)
    have hs : s.writeScreen (screens b) = s := by rw [h0]; rfl
    rw [hs] at hread
    have hq : (drawByte cx (spriteRow cy b) (bytes b) (s.screen, hit)).1 = screens (b + 1) := by
      rw [h0] at hdrawn
      exact drawnByte_unique (drawByte_drawn _ _ _ _ _ _) hdrawn
    obtain ⟨hit', heq, hiff⟩ := ih (b + 1) (drawByte cx (spriteRow cy b) (bytes b) (s.screen, hit)).2
      (s.writeScreen (screens (b + 1))) rfl (fun k h1 h2 => hrows k (by omega) (by omega))
    refine ⟨hit', ?_, ?_⟩
    · simp only [drawRows, withByte, hread, hq]
      rw [heq, show b + 1 + todo = b + (todo + 1) by omega]
      rfl
    · rw [hiff, drawByte_hit, ← h0]
      constructor
      · rintro ((h | h) | ⟨k, h1, h2, h3⟩)
        · exact .inl h
        · exact .inr ⟨b, Nat.le_refl b, by omega, h⟩
        · exact .inr ⟨k, by omega, by omega, h3⟩
      · rintro (h | ⟨k, h1, h2, h3⟩)
        · exact .inl (.inl h)
        · rcases Nat.lt_or_eq_of_le h1 with h1 | rfl
          · exact .inr ⟨k, by omega, by omega, h3⟩
          · exact .inl (.inr h3)

/-- The first row whose byte cannot be read raises its error, with the rows before it drawn and `V[0xF]` as it was. -/
theorem drawRows_fault {cx cy : Byte} {screens : Nat → Screen} {bytes : Nat → Byte} (k todo b : Nat) (hit : Bool)
    (s : State) (h0 : screens b = s.screen)
    (hrows : ∀ i, b ≤ i → i < b + k → (s.writeScreen (screens i)).busRead (s.indexAddress i) = .ok (bytes i) ∧
      DrawnByte cx cy i (bytes i) (screens i) (screens (i + 1)))
    {e : AccessError} (he : (s.writeScreen (screens (b + k))).busRead (s.indexAddress (b + k)) = .error e)
    (hk : k < todo) :
    drawRows cx cy todo b hit s = .fault (e.toFault (s.writeScreen (screens (b + k)))) := by
  induction k generalizing b hit s todo with
  | zero =>
    obtain ⟨todo, rfl⟩ : ∃ m, todo = m + 1 := ⟨todo - 1, by omega⟩
    have hs : s.writeScreen (screens b) = s := by rw [h0]; rfl
    simp only [Nat.add_zero, hs] at he ⊢
    simp only [drawRows, withByte, he, raise]
  | succ k ih =>
    obtain ⟨todo, rfl⟩ : ∃ m, todo = m + 1 := ⟨todo - 1, by omega⟩
    obtain ⟨hread, hdrawn⟩ := hrows b (Nat.le_refl b) (by omega)
    have hs : s.writeScreen (screens b) = s := by rw [h0]; rfl
    rw [hs] at hread
    have hq : (drawByte cx (spriteRow cy b) (bytes b) (s.screen, hit)).1 = screens (b + 1) := by
      rw [h0] at hdrawn
      exact drawnByte_unique (drawByte_drawn _ _ _ _ _ _) hdrawn
    have hshift : b + 1 + k = b + (k + 1) := by omega
    simp only [drawRows, withByte, hread, hq]
    rw [ih todo (b + 1) _ (s.writeScreen (screens (b + 1))) rfl (fun i h1 h2 => hrows i (by omega) (by omega))
      (by rw [hshift]; exact he) (by omega), hshift]
    rfl

/-- Whether a read succeeds does not depend on what the screen shows. -/
theorem canRead_writeScreen (s : State) (p : Screen) (a : Nat) : (s.writeScreen p).canRead a = s.canRead a := by
  have h : ∀ dev, (s.writeScreen p).capacity dev = s.capacity dev := by rintro (_ | _) <;> rfl
  simp only [State.canRead, writeScreen_readable, h]

/-- Rows whose addresses can be read can be drawn. -/
theorem exists_drawnRows (cx cy : Byte) (k : Nat) (s : State)
    (h : ∀ b, b < k → s.canRead (s.indexAddress b) = true) : ∃ screens bytes, DrawnRows cx cy k s screens bytes := by
  induction k with
  | zero => exact ⟨fun _ => s.screen, fun _ => 0, rfl, by omega⟩
  | succ k ih =>
    obtain ⟨screens, bytes, h0, hrows⟩ := ih fun b hb => h b (by omega)
    obtain ⟨sprite, hread⟩ := (canRead_iff (s.writeScreen (screens k)) (s.indexAddress k)).1 (by
      rw [canRead_writeScreen]; exact h k (by omega))
    refine ⟨fun i => if i = k + 1 then (drawByte cx (spriteRow cy k) sprite (screens k, false)).1 else screens i,
      fun i => if i = k then sprite else bytes i, by simpa using h0, fun b hb => ?_⟩
    rcases Nat.lt_succ_iff_lt_or_eq.1 hb with hb | rfl
    · have h1 : b ≠ k + 1 := by omega
      have h2 : b ≠ k := by omega
      have h3 : b + 1 ≠ k + 1 := by omega
      simp only [h1, h2, h3, if_false]
      exact hrows b hb
    · have h1 : b ≠ b + 1 := by omega
      simp only [h1, if_false, if_true]
      exact ⟨hread, drawByte_drawn _ _ _ _ _ _⟩

/-- Everything `drawRows` can answer: a next state, or an error of a read. It never refuses. -/
theorem drawRows_cases (cx cy : Byte) (todo b : Nat) (hit : Bool) (s : State) :
    (∃ p f, drawRows cx cy todo b hit s = .next ((s.writeScreen p).writeFlag f)) ∨
    ∃ p a e, drawRows cx cy todo b hit s = .fault (AccessError.toFault e (s.writeScreen p)) ∧
      (s.writeScreen p).busRead a = .error e := by
  induction todo generalizing b hit s with
  | zero => exact .inl ⟨s.screen, _, rfl⟩
  | succ todo ih =>
    cases hread : s.busRead (s.indexAddress b) with
    | error e => exact .inr ⟨s.screen, s.indexAddress b, e, by simp only [drawRows, withByte, hread, raise]; rfl, hread⟩
    | ok sprite =>
      simp only [drawRows, withByte, hread]
      exact ih (b + 1) _ (s.writeScreen _)

end Sys2Proof.Machine
end

