-- ==== Sys2Proof/Laws/Fetch.lean ====
section
/-! SUPPORT. The fetch: which bytes it reads, and that a word put by `State.withFetchWord` is the word the next tick
fetches. -/

namespace Sys2Proof.Machine

@[simp] theorem toFault_after (e : AccessError) (s : State) : (e.toFault s).after = s := by cases e <;> rfl

@[simp] theorem advance_mem (s : State) : s.advance.mem = s.mem := rfl
@[simp] theorem advance_wait (s : State) : s.advance.wait = s.wait := rfl
@[simp] theorem advance_readable (s : State) : s.advance.readable = s.readable := rfl
@[simp] theorem advance_writable (s : State) : s.advance.writable = s.writable := rfl
@[simp] theorem advance_i (s : State) : s.advance.i = s.i := rfl
@[simp] theorem advance_readV (s : State) (r : Reg) : s.advance.readV r = s.readV r := rfl
theorem advance_pc (s : State) : s.advance.pc = BitVec.ofNat 16 ((s.pc.toNat + 2) % s.mem.size) := rfl

/-- Everything a fetch can answer (R96): the word of the two bytes, or the error of one of the two reads. -/
theorem fetchWord_cases (s : State) :
    (∃ hi lo, s.busRead s.pc.toNat = .ok hi ∧ s.busRead (s.pc.toNat + 1) = .ok lo ∧
      s.fetchWord = .ok (wordOfBytes hi lo)) ∨
    ∃ a e, s.busRead a = .error e ∧ s.fetchWord = .error e := by
  unfold State.fetchWord
  cases h : s.busRead s.pc.toNat with
  | error e => exact .inr ⟨_, e, h, rfl⟩
  | ok hi =>
    cases h' : s.busRead (s.pc.toNat + 1) with
    | error e => exact .inr ⟨_, e, h', rfl⟩
    | ok lo => exact .inl ⟨hi, lo, rfl, rfl, rfl⟩

/-- Everything a tick can be (R96, R100, R101, R103): nothing while Halted, a failed fetch, a word that is no instruction, or
the meaning of the decoded instruction on the advanced state. -/
theorem step_cases (s : State) :
    (s.wait.active = true ∧ step s = .next s) ∨
    (s.wait.active = false ∧ ∃ e, s.fetchWord = .error e ∧ step s = .fault (e.toFault s)) ∨
    (s.wait.active = false ∧ ∃ w, s.fetchWord = .ok w ∧ decodeWord w = none ∧
      step s = .fault (.unknownOpcode w s.pc s.advance)) ∨
    (s.wait.active = false ∧ ∃ w i, s.fetchWord = .ok w ∧ decodeWord w = some i ∧ step s = exec i s.advance) := by
  cases hw : s.wait.active with
  | true => exact .inl ⟨rfl, by simp [step, tickOnce, hw]⟩
  | false =>
    cases hf : s.fetchWord with
    | error e => exact .inr (.inl ⟨rfl, e, rfl, by simp [step, tickOnce, hw, tickRunning, hf, raise]⟩)
    | ok w =>
      cases hd : decodeWord w with
      | none => exact .inr (.inr (.inl ⟨rfl, w, rfl, hd, by simp [step, tickOnce, hw, tickRunning, hf, runWord, hd, unknownWord]⟩))
      | some i => exact .inr (.inr (.inr ⟨rfl, w, i, rfl, hd, by simp [step, tickOnce, hw, tickRunning, hf, runWord, hd]⟩))

/-! ### A placed word -/

theorem relocated_busRead {s : State} {a : Nat} (h : a < s.mem.size) : s.relocated.busRead a = .ok (s.mem.byteAt a) := by
  simp [State.busRead, State.relocated, route, BusEntry.contains, h, State.deviceRead, Memory.read]

theorem relocated_placeByte {s : State} {a : Nat} (b : Byte) (h : a < s.mem.size) :
    s.relocated.placeByte a b = ({ s with mem := s.mem.setByte a b } : State).relocated := by
  simp [State.placeByte, State.canRead, State.capacity, State.relocated, route, BusEntry.contains, h]

theorem relocated_fetch {s : State} (hw : s.mem.wf) (hsize : 4096 ≤ s.mem.size) (w : Word) :
    (s.relocated.placeWord w).fetchWord = .ok w := by
  have h0 : (0x200 : Word).toNat = 0x200 := rfl
  have hpc : s.relocated.pc.toNat = 0x200 := rfl
  have hw' := setByte_wf hw (hiByte w) (show 0x200 < s.mem.size by omega)
  unfold State.placeWord
  rw [hpc, relocated_placeByte _ (by omega), relocated_placeByte _ (by simp; omega)]
  unfold State.fetchWord
  have hpc' : ∀ t : State, t.relocated.pc.toNat = 0x200 := fun _ => rfl
  rw [hpc', relocated_busRead (by simp; omega), relocated_busRead (by simp; omega)]
  simp only [byteAt_setByte hw', byteAt_setByte hw]
  simp

/-- The next tick after a word is put in place fetches that word, and is a Running tick. -/
theorem withProgramWord_fetch {s : State} (hw : s.mem.wf) (hsize : 4096 ≤ s.mem.size) (w : Word) :
    (s.withProgramWord w).fetchWord = .ok w := by
  unfold State.withProgramWord
  dsimp only
  split
  · next h =>
    split
    · next hu => rw [h, hu]
    · exact relocated_fetch (s := { s with wait := ⟨s.wait.target, false⟩ }) hw hsize w
  · exact relocated_fetch (s := { s with wait := ⟨s.wait.target, false⟩ }) hw hsize w

@[simp] theorem placeByte_wait (s : State) (a : Nat) (b : Byte) : (s.placeByte a b).wait = s.wait := by
  unfold State.placeByte
  split
  · split <;> rfl
  · rfl

theorem withProgramWord_running (s : State) (w : Word) : (s.withProgramWord w).wait.active = false := by
  unfold State.withProgramWord
  dsimp only
  split
  · split <;> simp [State.placeWord, State.relocated]
  · simp [State.placeWord, State.relocated]

/-- The tick after a word is put in place runs the instruction the word decodes to, on the advanced state. -/
theorem step_withFetchWord {s : State} (hw : s.mem.wf) (hsize : 4096 ≤ s.mem.size) (w : Word) {i : Instr}
    (hi : decodeWord w = some i) :
    step (s.withFetchWord 16 w.toNat) = exec i (s.withFetchWord 16 w.toNat).advance := by
  have hww : s.withFetchWord 16 w.toNat = s.withProgramWord w := by
    have := w.isLt
    rw [State.withFetchWord, Nat.mod_eq_of_lt this]
    simp
  rw [hww]
  simp [step, tickOnce, withProgramWord_running, tickRunning, withProgramWord_fetch hw hsize, runWord, hi]

end Sys2Proof.Machine
end

