-- ==== Sys2Proof/Laws/Frame.lean ====
section
/-! SUPPORT. Frames: what each named update changes, and how frames compose. -/

namespace Sys2Proof.Machine

theorem component_same_refl (c : Component) (s : State) : c.same s s := by
  cases c <;> simp [Component.same]

theorem onlyChanges_writeV (s : State) (x : Reg) (b : Byte) : OnlyChanges [x] [] s (s.writeV x b) :=
  ⟨fun r hr => readV_writeV_ne s b fun h => hr (by simp [h]), fun c _ => by cases c <;> simp [Component.same]⟩

theorem onlyChanges_writePc (s : State) (a : Word) : OnlyChanges [] [.pc] s (s.writePc a) :=
  ⟨fun _ _ => rfl, fun c hc => by cases c <;> simp_all [Component.same]⟩
theorem onlyChanges_writeI (s : State) (a : Word) : OnlyChanges [] [.i] s (s.writeI a) :=
  ⟨fun _ _ => rfl, fun c hc => by cases c <;> simp_all [Component.same]⟩
theorem onlyChanges_writeSp (s : State) (a : Word) : OnlyChanges [] [.sp] s (s.writeSp a) :=
  ⟨fun _ _ => rfl, fun c hc => by cases c <;> simp_all [Component.same]⟩
theorem onlyChanges_writeDt (s : State) (b : Byte) : OnlyChanges [] [.dt] s (s.writeDt b) :=
  ⟨fun _ _ => rfl, fun c hc => by cases c <;> simp_all [Component.same]⟩
theorem onlyChanges_writeSt (s : State) (b : Byte) : OnlyChanges [] [.st] s (s.writeSt b) :=
  ⟨fun _ _ => rfl, fun c hc => by cases c <;> simp_all [Component.same]⟩
theorem onlyChanges_writeScreen (s : State) (p : Screen) : OnlyChanges [] [.screen] s (s.writeScreen p) :=
  ⟨fun _ _ => rfl, fun c hc => by cases c <;> simp_all [Component.same]⟩
theorem onlyChanges_armWait (s : State) (x : Reg) : OnlyChanges [] [.wait] s (s.armWait x) :=
  ⟨fun _ _ => rfl, fun c hc => by cases c <;> simp_all [Component.same]⟩
theorem onlyChanges_drawn (s : State) : OnlyChanges [] [.draws] s s.drawn :=
  ⟨fun _ _ => rfl, fun c hc => by cases c <;> simp_all [Component.same]⟩

theorem component_same_trans {c : Component} {s t u : State} (h : c.same s t) (g : c.same t u) : c.same s u := by
  cases c <;> simp_all [Component.same]

theorem onlyChanges_refl (s : State) : OnlyChanges [] [] s s := ⟨fun _ _ => rfl, fun c _ => component_same_refl c s⟩

theorem OnlyChanges.mono {regs regs' : List Reg} {parts parts' : List Component} {s t : State}
    (h : OnlyChanges regs parts s t) (hr : ∀ r ∈ regs, r ∈ regs') (hp : ∀ c ∈ parts, c ∈ parts') :
    OnlyChanges regs' parts' s t :=
  ⟨fun r hn => h.1 r fun hm => hn (hr r hm), fun c hn => h.2 c fun hm => hn (hp c hm)⟩

theorem OnlyChanges.trans {regs regs' : List Reg} {parts parts' : List Component} {s t u : State}
    (h : OnlyChanges regs parts s t) (g : OnlyChanges regs' parts' t u) :
    OnlyChanges (regs ++ regs') (parts ++ parts') s u :=
  ⟨fun r hn => (g.1 r (by simp_all)).trans (h.1 r (by simp_all)),
   fun c hn => component_same_trans (h.2 c (by simp_all)) (g.2 c (by simp_all))⟩

/-- A state that differs in memory and screen alone. -/
theorem onlyChanges_devices {s t : State} (h : t = { s with mem := t.mem, screen := t.screen }) :
    OnlyChanges [] [.mem, .screen] s t := by
  obtain ⟨m, hm⟩ : ∃ m, m = t.mem := ⟨_, rfl⟩
  obtain ⟨p, hp⟩ : ∃ p, p = t.screen := ⟨_, rfl⟩
  rw [← hm, ← hp] at h
  subst h
  exact ⟨fun _ _ => rfl, fun c hc => by cases c <;> simp_all [Component.same, State.keyPressed]⟩

theorem onlyChanges_registers {s t : State} (h : t = { s with v := t.v }) (regs : List Reg)
    (hv : ∀ r, r ∉ regs → t.readV r = s.readV r) : OnlyChanges regs [] s t := by
  refine ⟨hv, fun c _ => ?_⟩
  obtain ⟨m, hm⟩ : ∃ m, m = t.v := ⟨_, rfl⟩
  rw [← hm] at h
  subst h
  cases c <;> simp [Component.same, State.keyPressed]

end Sys2Proof.Machine
end

