-- ==== Sys2Proof/Laws/HostOps.lean ====
section
/-! SUPPORT. What the host operations over devices and registries can do. -/

namespace Sys2Proof.Machine

/-- What a device write leaves: one device changed, its capacity and the memory's canonical form kept (R43, R56). -/
theorem deviceWrite_leaves {s t : State} {dev : BusDevice} {a : Nat} {b : Byte} (h : s.deviceWrite dev a b = .ok t) :
    t = { s with mem := t.mem, screen := t.screen } ∧ t.mem.size = s.mem.size ∧ (s.mem.wf → t.mem.wf) := by
  cases dev <;> simp only [State.deviceWrite] at h
  · rcases memory_write_cases (m := s.mem) (a := a) (b := b) with ⟨ha, hb⟩ | ⟨-, hb⟩ <;> rw [hb] at h <;> cases h
    exact ⟨rfl, rfl, fun hw => setByte_wf hw b ha⟩
  · rcases screen_write_cases (p := s.screen) (b := a) (v := b) with ⟨-, hb⟩ | ⟨-, hb⟩ <;> rw [hb] at h <;> cases h
    exact ⟨rfl, rfl, id⟩

/-- Loading one list of bytes after another (R223). -/
theorem loadBytesAt_append (l r : List Byte) (a : Nat) {s t : State} (h : loadBytesAt l a s = .next t) :
    loadBytesAt (l ++ r) a s = loadBytesAt r (a + l.length) t := by
  induction l generalizing a s with
  | nil => cases h; rfl
  | cons b q ih =>
    simp only [loadBytesAt, List.cons_append] at *
    cases hd : s.deviceWrite .memory a b with
    | ok u =>
      rw [hd] at h
      simp only [] at h ⊢
      rw [ih _ h, List.length_cons]
      congr 1
      omega
    | error e => rw [hd] at h; cases h

/-- When a registration is refused: its range is inverted, or else its device is the Input Device (R59, R60; log 26). -/
theorem register_refused_iff (dir : Direction) (range : Registration) (s : State) (r : Refusal) :
    register dir range s = .refused r ↔
      (range.upper < range.lower ∧ r = .invertedRange range.lower range.upper) ∨
      (range.lower ≤ range.upper ∧ range.dev = .input ∧ r = .inputDeviceOnBus) := by
  obtain ⟨dev, lower, upper⟩ := range
  by_cases h : upper < lower
  · simp [register, h, Nat.not_le.2 h, eq_comm]
  · have hle := Nat.not_lt.1 h
    cases dev
    case input => simp [register, h, hle, Device.toBus, eq_comm]
    all_goals
      cases dir <;> simp only [register, h, if_false, Device.toBus, false_and, false_or, reduceCtorEq, and_false, iff_false] <;>
        split <;> simp

/-- Everything a registration of a device with a bus interface can answer (R60, R61). -/
theorem register_cases (dir : Direction) (range : Registration) (s : State) {dev : BusDevice}
    (hdev : Device.toBus range.dev = some dev) (hle : range.lower ≤ range.upper) :
    register dir range s = .fault (.rangeConflict dir range s) ∨
    (dir = .read ∧ (∀ e ∈ s.readable, e.conflicts ⟨dev, range.lower, range.upper⟩ = false) ∧
      register dir range s = .next { s with readable := s.readable ++ [⟨dev, range.lower, range.upper⟩] }) ∨
    (dir = .write ∧ (∀ e ∈ s.writable, e.conflicts ⟨dev, range.lower, range.upper⟩ = false) ∧
      register dir range s = .next { s with writable := s.writable ++ [⟨dev, range.lower, range.upper⟩] }) := by
  have h : ¬ range.upper < range.lower := by omega
  cases dir <;> simp only [register, h, if_false, hdev]
  · cases hc : s.readable.any (·.conflicts ⟨dev, range.lower, range.upper⟩)
    · refine .inr (.inl ⟨trivial, fun e he => ?_, by simp⟩)
      simpa using List.any_eq_false.1 hc e he
    · exact .inl (by simp)
  · cases hc : s.writable.any (·.conflicts ⟨dev, range.lower, range.upper⟩)
    · refine .inr (.inr ⟨trivial, fun e he => ?_, by simp⟩)
      simpa using List.any_eq_false.1 hc e he
    · exact .inl (by simp)

end Sys2Proof.Machine
end

