-- ==== Sys2Proof/Laws/PerInstr.lean ====
section
/-! SUPPORT. The family `EncodesOwnRow`: the opcode of a well-formed instruction is covered by a row of the opcode map that
builds the instruction back (30_encoding.md R82, R86). One lemma for each constructor. -/

namespace Sys2Proof.Laws.EncodesOwnRow

/-- Some row of the opcode map covers the instruction's opcode and builds the instruction from it. -/
def Statement (i : Instr) : Prop :=
  i.wellFormed = true → ∃ r ∈ decodeTable, r.covers (encode i) = true ∧ r.build (encode i) = i

/-- The `k`-th row does. -/
theorem of_row {i : Instr} (k : Nat) (hk : k < decodeTable.length) (hc : decodeTable[k].covers (encode i) = true)
    (hb : decodeTable[k].build (encode i) = i) : ∃ r ∈ decodeTable, r.covers (encode i) = true ∧ r.build (encode i) = i :=
  ⟨decodeTable[k], List.getElem_mem hk, hc, hb⟩

theorem covers_major {w : Word} {r : DecodeRow} {op : Nat} (hm : r.mask = 0xF000) (hp : r.pattern.toNat = op * 4096)
    (hw : w.toNat / 4096 = op) : r.covers w = true := by
  rw [covers_iff, hm, and_F000, hp, hw]

theorem covers_minor {w : Word} {r : DecodeRow} {op low : Nat} (hm : r.mask = 0xF00F)
    (hp : r.pattern.toNat = op * 4096 + low) (hw : w.toNat / 4096 = op) (hl : w.toNat % 16 = low) :
    r.covers w = true := by
  rw [covers_iff, hm, and_F00F, hp, hw, hl]

theorem covers_byte {w : Word} {r : DecodeRow} {op low : Nat} (hm : r.mask = 0xF0FF)
    (hp : r.pattern.toNat = op * 4096 + low) (hw : w.toNat / 4096 = op) (hl : w.toNat % 256 = low) :
    r.covers w = true := by
  rw [covers_iff, hm, and_F0FF, hp, hw, hl]

theorem row_nnn {op : Nat} {addr : Word} {r : DecodeRow} {mk : Word → Instr} (hop : op < 16)
    (hm : r.mask = 0xF000) (hp : r.pattern.toNat = op * 4096) (hb : ∀ w, r.build w = mk (fieldAddr w))
    (h : fitsAddr addr = true) :
    r.covers (encodeNnn op addr) = true ∧ r.build (encodeNnn op addr) = mk addr := by
  obtain ⟨hw, ha⟩ := encodeNnn_toNat hop h
  exact ⟨covers_major hm hp (by omega), by rw [hb, fieldAddr_eq hw ha]⟩

theorem row_xkk {op : Nat} (x : Reg) (kk : Byte) {r : DecodeRow} {mk : Reg → Byte → Instr} (hop : op < 16)
    (hm : r.mask = 0xF000) (hp : r.pattern.toNat = op * 4096) (hb : ∀ w, r.build w = mk (fieldX w) (fieldKk w)) :
    r.covers (encodeXkk op x kk) = true ∧ r.build (encodeXkk op x kk) = mk x kk := by
  have hw := encodeXkk_toNat hop x kk
  have hx := x.isLt
  have hk := kk.isLt
  refine ⟨covers_major hm hp (by omega), ?_⟩
  rw [hb, fieldX_eq (x := x) (by omega), fieldKk_eq (kk := kk) (by omega)]

theorem row_xy {op low : Nat} (x y : Reg) {r : DecodeRow} {mk : Reg → Reg → Instr} (hop : op < 16) (hlow : low < 16)
    (hm : r.mask = 0xF00F) (hp : r.pattern.toNat = op * 4096 + low)
    (hb : ∀ w, r.build w = mk (fieldX w) (fieldY w)) :
    r.covers (encodeXyn op x y low) = true ∧ r.build (encodeXyn op x y low) = mk x y := by
  have hw := encodeXyn_toNat hop hlow x y
  have hx := x.isLt
  have hy := y.isLt
  refine ⟨covers_minor hm hp (by omega) (by omega), ?_⟩
  rw [hb, fieldX_eq (x := x) (by omega), fieldY_eq (y := y) (by omega)]

theorem row_x {op minor : Nat} (x : Reg) {r : DecodeRow} {mk : Reg → Instr} (hop : op < 16) (hminor : minor < 256)
    (hm : r.mask = 0xF0FF) (hp : r.pattern.toNat = op * 4096 + minor) (hb : ∀ w, r.build w = mk (fieldX w)) :
    r.covers (encodeX op x minor) = true ∧ r.build (encodeX op x minor) = mk x := by
  have hw := encodeX_toNat hop hminor x
  have hx := x.isLt
  exact ⟨covers_byte hm hp (by omega) (by omega), by rw [hb, fieldX_eq (x := x) (by omega)]⟩

theorem cls : Statement (.cls) := fun _ =>
  of_row 0 (by decide) (by decide) (by rfl)

theorem ret : Statement (.ret) := fun _ =>
  of_row 1 (by decide) (by decide) (by rfl)

theorem jp (addr : Word) : Statement (.jp addr) := fun h =>
  of_row 2 (by decide) (row_nnn (mk := .jp) (by decide) rfl rfl (fun _ => rfl) h).1 (row_nnn (mk := .jp) (by decide) rfl rfl (fun _ => rfl) h).2

theorem call (addr : Word) : Statement (.call addr) := fun h =>
  of_row 3 (by decide) (row_nnn (mk := .call) (by decide) rfl rfl (fun _ => rfl) h).1 (row_nnn (mk := .call) (by decide) rfl rfl (fun _ => rfl) h).2

theorem seImm (x : Reg) (kk : Byte) : Statement (.seImm x kk) := fun _ =>
  of_row 4 (by decide) (row_xkk x kk (mk := .seImm) (by decide) rfl rfl (fun _ => rfl)).1 (row_xkk x kk (mk := .seImm) (by decide) rfl rfl (fun _ => rfl)).2

theorem sneImm (x : Reg) (kk : Byte) : Statement (.sneImm x kk) := fun _ =>
  of_row 5 (by decide) (row_xkk x kk (mk := .sneImm) (by decide) rfl rfl (fun _ => rfl)).1 (row_xkk x kk (mk := .sneImm) (by decide) rfl rfl (fun _ => rfl)).2

theorem seReg (x : Reg) (y : Reg) : Statement (.seReg x y) := fun _ =>
  of_row 6 (by decide) (row_xy x y (mk := .seReg) (by decide) (by decide) rfl rfl (fun _ => rfl)).1
    (row_xy x y (mk := .seReg) (by decide) (by decide) rfl rfl (fun _ => rfl)).2

theorem ldImm (x : Reg) (kk : Byte) : Statement (.ldImm x kk) := fun _ =>
  of_row 7 (by decide) (row_xkk x kk (mk := .ldImm) (by decide) rfl rfl (fun _ => rfl)).1 (row_xkk x kk (mk := .ldImm) (by decide) rfl rfl (fun _ => rfl)).2

theorem addImm (x : Reg) (kk : Byte) : Statement (.addImm x kk) := fun _ =>
  of_row 8 (by decide) (row_xkk x kk (mk := .addImm) (by decide) rfl rfl (fun _ => rfl)).1 (row_xkk x kk (mk := .addImm) (by decide) rfl rfl (fun _ => rfl)).2

theorem ldReg (x : Reg) (y : Reg) : Statement (.ldReg x y) := fun _ =>
  of_row 9 (by decide) (row_xy x y (mk := .ldReg) (by decide) (by decide) rfl rfl (fun _ => rfl)).1
    (row_xy x y (mk := .ldReg) (by decide) (by decide) rfl rfl (fun _ => rfl)).2

theorem orReg (x : Reg) (y : Reg) : Statement (.orReg x y) := fun _ =>
  of_row 10 (by decide) (row_xy x y (mk := .orReg) (by decide) (by decide) rfl rfl (fun _ => rfl)).1
    (row_xy x y (mk := .orReg) (by decide) (by decide) rfl rfl (fun _ => rfl)).2

theorem andReg (x : Reg) (y : Reg) : Statement (.andReg x y) := fun _ =>
  of_row 11 (by decide) (row_xy x y (mk := .andReg) (by decide) (by decide) rfl rfl (fun _ => rfl)).1
    (row_xy x y (mk := .andReg) (by decide) (by decide) rfl rfl (fun _ => rfl)).2

theorem xorReg (x : Reg) (y : Reg) : Statement (.xorReg x y) := fun _ =>
  of_row 12 (by decide) (row_xy x y (mk := .xorReg) (by decide) (by decide) rfl rfl (fun _ => rfl)).1
    (row_xy x y (mk := .xorReg) (by decide) (by decide) rfl rfl (fun _ => rfl)).2

theorem addReg (x : Reg) (y : Reg) : Statement (.addReg x y) := fun _ =>
  of_row 13 (by decide) (row_xy x y (mk := .addReg) (by decide) (by decide) rfl rfl (fun _ => rfl)).1
    (row_xy x y (mk := .addReg) (by decide) (by decide) rfl rfl (fun _ => rfl)).2

theorem sub (x : Reg) (y : Reg) : Statement (.sub x y) := fun _ =>
  of_row 14 (by decide) (row_xy x y (mk := .sub) (by decide) (by decide) rfl rfl (fun _ => rfl)).1
    (row_xy x y (mk := .sub) (by decide) (by decide) rfl rfl (fun _ => rfl)).2

theorem shr (x : Reg) (y : Reg) : Statement (.shr x y) := fun _ =>
  of_row 15 (by decide) (row_xy x y (mk := .shr) (by decide) (by decide) rfl rfl (fun _ => rfl)).1
    (row_xy x y (mk := .shr) (by decide) (by decide) rfl rfl (fun _ => rfl)).2

theorem subn (x : Reg) (y : Reg) : Statement (.subn x y) := fun _ =>
  of_row 16 (by decide) (row_xy x y (mk := .subn) (by decide) (by decide) rfl rfl (fun _ => rfl)).1
    (row_xy x y (mk := .subn) (by decide) (by decide) rfl rfl (fun _ => rfl)).2

theorem shl (x : Reg) (y : Reg) : Statement (.shl x y) := fun _ =>
  of_row 17 (by decide) (row_xy x y (mk := .shl) (by decide) (by decide) rfl rfl (fun _ => rfl)).1
    (row_xy x y (mk := .shl) (by decide) (by decide) rfl rfl (fun _ => rfl)).2

theorem sneReg (x : Reg) (y : Reg) : Statement (.sneReg x y) := fun _ =>
  of_row 18 (by decide) (row_xy x y (mk := .sneReg) (by decide) (by decide) rfl rfl (fun _ => rfl)).1
    (row_xy x y (mk := .sneReg) (by decide) (by decide) rfl rfl (fun _ => rfl)).2

theorem ldI (addr : Word) : Statement (.ldI addr) := fun h =>
  of_row 19 (by decide) (row_nnn (mk := .ldI) (by decide) rfl rfl (fun _ => rfl) h).1 (row_nnn (mk := .ldI) (by decide) rfl rfl (fun _ => rfl) h).2

theorem jpV0 (addr : Word) : Statement (.jpV0 addr) := fun h =>
  of_row 20 (by decide) (row_nnn (mk := .jpV0) (by decide) rfl rfl (fun _ => rfl) h).1 (row_nnn (mk := .jpV0) (by decide) rfl rfl (fun _ => rfl) h).2

theorem rnd (x : Reg) (kk : Byte) : Statement (.rnd x kk) := fun _ =>
  of_row 21 (by decide) (row_xkk x kk (mk := .rnd) (by decide) rfl rfl (fun _ => rfl)).1 (row_xkk x kk (mk := .rnd) (by decide) rfl rfl (fun _ => rfl)).2

theorem drw (x : Reg) (y : Reg) (n : Nat) : Statement (.drw x y n) := fun h => by
  have hn : n < 16 := by simpa [Instr.wellFormed, fitsCount] using h
  have hw := encodeXyn_toNat (op := 0xD) (by decide) hn x y
  have hx := x.isLt
  have hy := y.isLt
  refine of_row 22 (by decide) (covers_major (op := 0xD) rfl rfl ?_) ?_
  · show (encodeXyn 0xD x y n).toNat / 4096 = 0xD
    omega
  · have h1 : fieldX (encodeXyn 0xD x y n) = x := fieldX_eq (by omega)
    have h2 : fieldY (encodeXyn 0xD x y n) = y := fieldY_eq (by omega)
    have h3 : fieldN (encodeXyn 0xD x y n) = n := by simp only [fieldN]; omega
    show Instr.drw (fieldX (encodeXyn 0xD x y n)) (fieldY (encodeXyn 0xD x y n)) (fieldN (encodeXyn 0xD x y n)) = _
    rw [h1, h2, h3]

theorem skp (x : Reg) : Statement (.skp x) := fun _ =>
  of_row 23 (by decide) (row_x x (mk := .skp) (by decide) (by decide) rfl rfl (fun _ => rfl)).1
    (row_x x (mk := .skp) (by decide) (by decide) rfl rfl (fun _ => rfl)).2

theorem sknp (x : Reg) : Statement (.sknp x) := fun _ =>
  of_row 24 (by decide) (row_x x (mk := .sknp) (by decide) (by decide) rfl rfl (fun _ => rfl)).1
    (row_x x (mk := .sknp) (by decide) (by decide) rfl rfl (fun _ => rfl)).2

theorem ldVxDt (x : Reg) : Statement (.ldVxDt x) := fun _ =>
  of_row 25 (by decide) (row_x x (mk := .ldVxDt) (by decide) (by decide) rfl rfl (fun _ => rfl)).1
    (row_x x (mk := .ldVxDt) (by decide) (by decide) rfl rfl (fun _ => rfl)).2

theorem ldVxK (x : Reg) : Statement (.ldVxK x) := fun _ =>
  of_row 26 (by decide) (row_x x (mk := .ldVxK) (by decide) (by decide) rfl rfl (fun _ => rfl)).1
    (row_x x (mk := .ldVxK) (by decide) (by decide) rfl rfl (fun _ => rfl)).2

theorem ldDtVx (x : Reg) : Statement (.ldDtVx x) := fun _ =>
  of_row 27 (by decide) (row_x x (mk := .ldDtVx) (by decide) (by decide) rfl rfl (fun _ => rfl)).1
    (row_x x (mk := .ldDtVx) (by decide) (by decide) rfl rfl (fun _ => rfl)).2

theorem ldStVx (x : Reg) : Statement (.ldStVx x) := fun _ =>
  of_row 28 (by decide) (row_x x (mk := .ldStVx) (by decide) (by decide) rfl rfl (fun _ => rfl)).1
    (row_x x (mk := .ldStVx) (by decide) (by decide) rfl rfl (fun _ => rfl)).2

theorem addI (x : Reg) : Statement (.addI x) := fun _ =>
  of_row 29 (by decide) (row_x x (mk := .addI) (by decide) (by decide) rfl rfl (fun _ => rfl)).1
    (row_x x (mk := .addI) (by decide) (by decide) rfl rfl (fun _ => rfl)).2

theorem ldF (x : Reg) : Statement (.ldF x) := fun _ =>
  of_row 30 (by decide) (row_x x (mk := .ldF) (by decide) (by decide) rfl rfl (fun _ => rfl)).1
    (row_x x (mk := .ldF) (by decide) (by decide) rfl rfl (fun _ => rfl)).2

theorem ldB (x : Reg) : Statement (.ldB x) := fun _ =>
  of_row 31 (by decide) (row_x x (mk := .ldB) (by decide) (by decide) rfl rfl (fun _ => rfl)).1
    (row_x x (mk := .ldB) (by decide) (by decide) rfl rfl (fun _ => rfl)).2

theorem ldMemVx (x : Reg) : Statement (.ldMemVx x) := fun _ =>
  of_row 32 (by decide) (row_x x (mk := .ldMemVx) (by decide) (by decide) rfl rfl (fun _ => rfl)).1
    (row_x x (mk := .ldMemVx) (by decide) (by decide) rfl rfl (fun _ => rfl)).2

theorem ldVxMem (x : Reg) : Statement (.ldVxMem x) := fun _ =>
  of_row 33 (by decide) (row_x x (mk := .ldVxMem) (by decide) (by decide) rfl rfl (fun _ => rfl)).1
    (row_x x (mk := .ldVxMem) (by decide) (by decide) rfl rfl (fun _ => rfl)).2

end Sys2Proof.Laws.EncodesOwnRow
end

