-- ==== Sys2Proof/Tests/Slice0.lean ====
section
/-! SUPPORT. The model's own tests. Expected values come from spec/30_encoding.md's patterns and from the vectors of
spec/95_test_vectors.md, whose names the comments give; the witnesses at the end meet the statements' hypotheses. -/

namespace Sys2Proof.Machine.Tests

/-! ### Helpers -/

/-- The next state an operation answers. -/
def nextOf (o : Outcome) : Option State :=
  match o with
  | .next s => some s
  | _ => none

/-- The error an operation answers. -/
def faultOf (o : Outcome) : Option Fault :=
  match o with
  | .fault f => some f
  | _ => none

/-- A host operation's next state and reply. -/
def replyOf (o : HostOutcome) : Option (State × Reply) :=
  match o with
  | .next r => some r
  | _ => none

/-- A host operation's error. -/
def hostFaultOf (o : HostOutcome) : Option Fault :=
  match o with
  | .fault f => some f
  | _ => none

/-- The state with registers set. -/
def regs (l : List (Reg × Byte)) (s : State) : State := l.foldl (fun t p => t.writeV p.1 p.2) s

/-- The state with bytes of memory set, from an address on. -/
def bytes (a : Nat) (l : List Byte) (s : State) : State := { s with mem := s.mem.setBytes a l }

/-- A screen on which some pixels are lit, and no others. -/
def lit (l : List (Fin 32 × Fin 64)) : Screen :=
  l.foldl (fun q p => q.setPixel p.1 p.2 true) State.reset.screen

/-- The common start state of the vectors (95_test_vectors.md section 0). -/
def start : State := State.reset

/-- One tick with an opcode placed where it is fetched. -/
def tick (w : Nat) (s : State) : Outcome := step (s.withFetchWord 16 w)

/-! ### WellFormed refuses ill-formed terms (R81, R83) -/

theorem test_wf_jp : (Instr.jp 0x1000).wellFormed = false ∧ (Instr.jp 0xFFF).wellFormed = true := by decide
theorem test_wf_call : (Instr.call 0x1000).wellFormed = false ∧ (Instr.call 0xFFF).wellFormed = true := by decide
theorem test_wf_ldI : (Instr.ldI 0xFFFF).wellFormed = false ∧ (Instr.ldI 0).wellFormed = true := by decide
theorem test_wf_jpV0 : (Instr.jpV0 0x1000).wellFormed = false ∧ (Instr.jpV0 0xFFF).wellFormed = true := by decide
theorem test_wf_drw : (Instr.drw 0 0 16).wellFormed = false ∧ (Instr.drw 0 0 15).wellFormed = true := by decide

/-! ### Decoding words written out from R82 and R86 -/

theorem test_decode_control : decodeTableWord 16 0x00E0 = some .cls ∧ decodeTableWord 16 0x00EE = some .ret ∧
    decodeTableWord 16 0x1ABC = some (.jp 0xABC) ∧ decodeTableWord 16 0x2300 = some (.call 0x300) ∧
    decodeTableWord 16 0xBFFF = some (.jpV0 0xFFF) := by decide

theorem test_decode_skip : decodeTableWord 16 0x3342 = some (.seImm 3 0x42) ∧
    decodeTableWord 16 0x4F80 = some (.sneImm 0xF 0x80) ∧ decodeTableWord 16 0x5120 = some (.seReg 1 2) ∧
    decodeTableWord 16 0x9210 = some (.sneReg 2 1) ∧ decodeTableWord 16 0xE59E = some (.skp 5) ∧
    decodeTableWord 16 0xECA1 = some (.sknp 0xC) := by decide

theorem test_decode_loads : decodeTableWord 16 0x6105 = some (.ldImm 1 5) ∧
    decodeTableWord 16 0x71FF = some (.addImm 1 0xFF) ∧ decodeTableWord 16 0x8120 = some (.ldReg 1 2) ∧
    decodeTableWord 16 0xC30F = some (.rnd 3 0x0F) := by decide

theorem test_decode_alu : decodeTableWord 16 0x8121 = some (.orReg 1 2) ∧
    decodeTableWord 16 0x8122 = some (.andReg 1 2) ∧ decodeTableWord 16 0x8123 = some (.xorReg 1 2) ∧
    decodeTableWord 16 0x8124 = some (.addReg 1 2) ∧ decodeTableWord 16 0x8125 = some (.sub 1 2) ∧
    decodeTableWord 16 0x8126 = some (.shr 1 2) ∧ decodeTableWord 16 0x8127 = some (.subn 1 2) ∧
    decodeTableWord 16 0x812E = some (.shl 1 2) := by decide

theorem test_decode_display_index : decodeTableWord 16 0xD125 = some (.drw 1 2 5) ∧
    decodeTableWord 16 0xA005 = some (.ldI 5) ∧ decodeTableWord 16 0xF21E = some (.addI 2) ∧
    decodeTableWord 16 0xF129 = some (.ldF 1) ∧ decodeTableWord 16 0xF233 = some (.ldB 2) ∧
    decodeTableWord 16 0xF155 = some (.ldMemVx 1) ∧ decodeTableWord 16 0xF265 = some (.ldVxMem 2) := by decide

theorem test_decode_timer_input : decodeTableWord 16 0xF307 = some (.ldVxDt 3) ∧
    decodeTableWord 16 0xF50A = some (.ldVxK 5) ∧ decodeTableWord 16 0xF315 = some (.ldDtVx 3) ∧
    decodeTableWord 16 0xF318 = some (.ldStVx 3) := by decide

/-- CYC-4 to CYC-11 and ALU-28. -/
theorem test_decode_rejects : decodeTableWord 16 0x0123 = none ∧ decodeTableWord 16 0xFFFF = none ∧
    decodeTableWord 16 0x0000 = none ∧ decodeTableWord 16 0x800F = none ∧ decodeTableWord 16 0x5121 = none ∧
    decodeTableWord 16 0xE09F = none ∧ decodeTableWord 16 0xF000 = none ∧ decodeTableWord 16 0x00E1 = none ∧
    decodeTableWord 16 0x8128 = none := by decide

theorem test_decode_bytes : decode [0x61, 0x05, 0x71] = .ok (.ldImm 1 5, [0x71]) ∧
    decode [0x51, 0x21] = .error (.unknownOpcode 0x5121) ∧ decode [0x61] = .error .tooShort := by
  refine ⟨?_, ?_, ?_⟩ <;> rfl

/-! ### The tick -/

/-- CYC-1: the advance wraps. -/
theorem test_advance_wraps : (nextOf (tick 0x6001 { start with pc := 0xFFE })).map (fun t => (t.readV 0, t.pc)) =
    some (1, 0) := by decide

/-- CYC-2. -/
theorem test_fetch_fails : faultOf (step (bytes 0xFFF [0x60] { start with pc := 0xFFF })) =
    some (.addressUnmapped .read 0x1000 (bytes 0xFFF [0x60] { start with pc := 0xFFF })) := by decide

/-- CYC-3. -/
theorem test_halted : nextOf (step (bytes 0x200 [0x60, 0x01] { start with wait := ⟨2, true⟩ })) =
    some (bytes 0x200 [0x60, 0x01] { start with wait := ⟨2, true⟩ }) := by decide

/-- CYC-8. -/
theorem test_unknown : faultOf (tick 0x5121 start) =
    some (.unknownOpcode 0x5121 0x200 (bytes 0x200 [0x51, 0x21] { start with pc := 0x202 })) := by decide

/-- CYC-6: what a tick does right after reset, with no program loaded. -/
theorem test_reset_tick : faultOf (step State.reset) =
    some (.unknownOpcode 0x0000 0x200 { State.reset with pc := 0x202 }) := by decide

/-! ### Display -/

/-- DSP-1. -/
theorem test_cls : (nextOf (tick 0x00E0 { start with screen := lit [(0, 0), (31, 63)] })).map
    (fun t => (t.screen, t.pc)) = some (lit [], 0x202) := by decide

/-- DSP-4: both coordinates wrap. -/
theorem test_drw_wraps : (nextOf (tick 0xD012 (regs [(0, 0x3E), (1, 0x1F)] start))).map
    (fun t => (t.screen, t.readV 0xF)) =
    some (lit [(31, 62), (31, 63), (31, 0), (31, 1), (0, 62), (0, 1)], 0) := by decide

/-- DSP-8: what stays done when the second sprite byte cannot be read. -/
theorem test_drw_fault : (faultOf (tick 0xD012 (bytes 0xFFF [0x80] (regs [(0xF, 7)] { start with i := 0xFFF })))).map
    (fun f => (f.code, f.after.screen, f.after.readV 0xF, f.after.pc)) = some (1, lit [(0, 0)], 7, 0x202) := by decide

/-! ### Control transfer -/

/-- CTL-3. -/
theorem test_ret : (nextOf (tick 0x00EE (bytes 0xFFE [0x02, 0x04] { start with sp := 0x0FFE }))).map
    (fun t => (t.pc, t.sp)) = some (0x204, 0x1000) := by decide

/-- CTL-7. -/
theorem test_ret_fault : (faultOf (tick 0x00EE { start with sp := 0x0FFF })).map
    (fun f => (f.code, f.after.sp, f.after.pc)) = some (1, 0x0FFF, 0x202) := by decide

/-- CTL-1. -/
theorem test_jp : (nextOf (tick 0x1ABC start)).map (·.pc) = some 0xABC := by decide

/-- CTL-2. -/
theorem test_call : (nextOf (tick 0x2300 start)).map
    (fun t => (t.sp, t.mem.byteAt 0xFFE, t.mem.byteAt 0xFFF, t.pc)) = some (0x0FFE, 0x02, 0x02, 0x300) := by decide

/-- CTL-12: the high byte is stored, the low byte fails. -/
theorem test_call_fault : (faultOf (tick 0x2300 { start with sp := 0x1001 })).map
    (fun f => (f.code, f.after.sp, f.after.mem.byteAt 0xFFF, f.after.pc)) = some (1, 0x0FFF, 0x02, 0x202) := by decide

/-- CTL-10. -/
theorem test_jpV0 : (nextOf (tick 0xBFFF (regs [(0, 0x10)] start))).map (·.pc) = some 0x00F := by decide

/-! ### Skips -/

/-- SKP-1, SKP-2. -/
theorem test_seImm : (nextOf (tick 0x3342 (regs [(3, 0x42)] start))).map (·.pc) = some 0x204 ∧
    (nextOf (tick 0x3342 (regs [(3, 0x41)] start))).map (·.pc) = some 0x202 := by decide

/-- SKP-3, SKP-4. -/
theorem test_sneImm : (nextOf (tick 0x4342 (regs [(3, 0x41)] start))).map (·.pc) = some 0x204 ∧
    (nextOf (tick 0x4342 (regs [(3, 0x42)] start))).map (·.pc) = some 0x202 := by decide

/-- SKP-5, SKP-6. -/
theorem test_seReg : (nextOf (tick 0x5120 (regs [(1, 7), (2, 7)] start))).map (·.pc) = some 0x204 ∧
    (nextOf (tick 0x5120 (regs [(1, 7), (2, 8)] start))).map (·.pc) = some 0x202 := by decide

/-- SKP-7, SKP-8. -/
theorem test_sneReg : (nextOf (tick 0x9120 (regs [(1, 7), (2, 8)] start))).map (·.pc) = some 0x204 ∧
    (nextOf (tick 0x9120 (regs [(1, 7), (2, 7)] start))).map (·.pc) = some 0x202 := by decide

/-- The keys of the skip vectors: key 3 pressed. -/
def keyThree : State := { start with keys := start.keys.set 3 true }

/-- SKP-9. -/
theorem test_skp : (nextOf (tick 0xE59E (regs [(5, 0x13)] keyThree))).map (·.pc) = some 0x204 := by decide

/-- SKP-10, SKP-11. -/
theorem test_sknp : (nextOf (tick 0xE5A1 (regs [(5, 0x13)] keyThree))).map (·.pc) = some 0x202 ∧
    (nextOf (tick 0xE5A1 (regs [(5, 4)] keyThree))).map (·.pc) = some 0x204 := by decide

/-! ### Arithmetic and logic -/

/-- X1's first instruction. -/
theorem test_ldImm : (nextOf (tick 0x6105 start)).map (fun t => (t.readV 1, t.pc)) = some (5, 0x202) := by decide

/-- ALU-2. -/
theorem test_addImm : (nextOf (tick 0x7102 (regs [(1, 0xFF), (0xF, 5)] start))).map
    (fun t => (t.readV 1, t.readV 0xF)) = some (1, 5) := by decide

/-- ALU-3. -/
theorem test_ldReg : (nextOf (tick 0x8120 (regs [(2, 0x99)] start))).map (·.readV 1) = some 0x99 := by decide

/-- ALU-4. -/
theorem test_orReg : (nextOf (tick 0x8121 (regs [(1, 0xF0), (2, 0x0F), (0xF, 9)] start))).map
    (fun t => (t.readV 1, t.readV 0xF)) = some (0xFF, 9) := by decide

/-- ALU-5. -/
theorem test_andReg : (nextOf (tick 0x8122 (regs [(1, 0xF3), (2, 0x3C), (0xF, 9)] start))).map
    (fun t => (t.readV 1, t.readV 0xF)) = some (0x30, 9) := by decide

/-- ALU-6. -/
theorem test_xorReg : (nextOf (tick 0x8123 (regs [(1, 0xF3), (2, 0x3C), (0xF, 9)] start))).map
    (fun t => (t.readV 1, t.readV 0xF)) = some (0xCF, 9) := by decide

/-- ALU-7, ALU-10. -/
theorem test_addReg : (nextOf (tick 0x8124 (regs [(1, 0xFF), (2, 1)] start))).map
    (fun t => (t.readV 1, t.readV 0xF)) = some (0, 1) ∧
    (nextOf (tick 0x8F24 (regs [(0xF, 0xFF), (2, 1)] start))).map (·.readV 0xF) = some 1 := by decide

/-- ALU-11, ALU-13. -/
theorem test_sub : (nextOf (tick 0x8125 (regs [(1, 5), (2, 7)] start))).map
    (fun t => (t.readV 1, t.readV 0xF)) = some (0xFE, 0) ∧
    (nextOf (tick 0x81F5 (regs [(1, 5), (0xF, 7)] start))).map
    (fun t => (t.readV 1, t.readV 0xF)) = some (0xFE, 0) := by decide

/-- ALU-14, ALU-15. -/
theorem test_subn : (nextOf (tick 0x8127 (regs [(1, 5), (2, 7)] start))).map
    (fun t => (t.readV 1, t.readV 0xF)) = some (2, 1) ∧
    (nextOf (tick 0x8127 (regs [(1, 1), (2, 0)] start))).map
    (fun t => (t.readV 1, t.readV 0xF)) = some (0xFF, 0) := by decide

/-- ALU-16, ALU-19: the register shifted is the second, read after the flag is written. -/
theorem test_shr : (nextOf (tick 0x8126 (regs [(1, 0xAA), (2, 5)] start))).map
    (fun t => (t.readV 1, t.readV 0xF)) = some (2, 1) ∧
    (nextOf (tick 0x81F6 (regs [(0xF, 5)] start))).map
    (fun t => (t.readV 1, t.readV 0xF)) = some (0, 1) := by decide

/-- ALU-21, ALU-23. -/
theorem test_shl : (nextOf (tick 0x812E (regs [(2, 0x81)] start))).map
    (fun t => (t.readV 1, t.readV 0xF)) = some (2, 1) ∧
    (nextOf (tick 0x81FE (regs [(0xF, 0x80)] start))).map
    (fun t => (t.readV 1, t.readV 0xF)) = some (2, 1) := by decide

/-- ALU-27: 0 for every draw, which is a free value. -/
theorem test_rnd : (nextOf (tick 0xC300 (regs [(3, 0x55)] start))).map (fun t => (t.readV 3, t.draws)) =
    some (Config.rng 0 &&& 0, 1) := rfl

/-! ### The address register and memory -/

/-- IDX-1. -/
theorem test_ldI : (nextOf (tick 0xA123 start)).map (·.i) = some 0x123 := by decide

/-- IDX-2. -/
theorem test_addI : (nextOf (tick 0xF21E (regs [(2, 2), (0xF, 9)] { start with i := 0xFFF }))).map
    (fun t => (t.i, t.readV 0xF)) = some (1, 9) := by decide

/-- IDX-4. -/
theorem test_ldF : (nextOf (tick 0xF429 (regs [(4, 0x1A)] start))).map (·.i) = some 0x32 := by decide

/-- IDX-6. -/
theorem test_ldB : (nextOf (tick 0xF433 (regs [(4, 255)] { start with i := 0x300 }))).map
    (fun t => (t.mem.byteAt 0x300, t.mem.byteAt 0x301, t.mem.byteAt 0x302)) = some (2, 5, 5) := by decide

/-- IDX-9. -/
theorem test_ldB_fault : (faultOf (tick 0xF433 (regs [(4, 123)] { start with i := 0xFFE }))).map
    (fun f => (f.code, f.after.mem.byteAt 0xFFE, f.after.mem.byteAt 0xFFF, f.after.pc)) = some (1, 1, 2, 0x202) := by
  decide

/-- IDX-10. -/
theorem test_ldMemVx : (nextOf (tick 0xF055 (regs [(0, 0xAA), (1, 0xBB)] { start with i := 0x300 }))).map
    (fun t => (t.mem.byteAt 0x300, t.mem.byteAt 0x301, t.i)) = some (0xAA, 0, 0x300) := by decide

/-- IDX-12. -/
theorem test_ldVxMem : (nextOf (tick 0xF265 (bytes 0x300 [1, 2, 3, 4] (regs [(3, 0x99)] { start with i := 0x300 })))).map
    (fun t => (t.readV 0, t.readV 1, t.readV 2, t.readV 3, t.i)) = some (1, 2, 3, 0x99, 0x300) := by decide

/-- IDX-14. -/
theorem test_ldVxMem_fault : (faultOf (tick 0xF365 (bytes 0xFFE [7, 8] { start with i := 0xFFE }))).map
    (fun f => (f.code, f.after.readV 0, f.after.readV 1, f.after.readV 2)) = some (1, 7, 8, 0) := by decide

/-! ### Timers, keys and the host -/

/-- TIM-1. -/
theorem test_ldVxDt : (nextOf (tick 0xF307 { start with dt := 0x3C })).map (·.readV 3) = some 0x3C := by decide

/-- TIM-4's first tick. -/
theorem test_ldVxK : (nextOf (tick 0xF50A start)).map (fun t => (t.wait, t.pc, t.readV 5)) =
    some (⟨5, true⟩, 0x202, 0) := by decide

/-- TIM-2. -/
theorem test_ldDtVx : (nextOf (tick 0xF315 (regs [(3, 0x3C)] start))).map (·.dt) = some 0x3C := by decide

/-- TIM-3. -/
theorem test_ldStVx : (nextOf (tick 0xF318 (regs [(3, 0x0A)] start))).map (·.st) = some 0x0A := by decide

/-- TIM-5's key event. -/
theorem test_key_edge : (nextOf (setKeyPressed 7 true { start with wait := ⟨5, true⟩ })).map
    (fun t => (t.readV 5, t.wait, t.keyPressed 7)) = some (7, ⟨5, false⟩, true) := by decide

/-- TIM-6, TIM-8: no edge, no end of the wait. -/
theorem test_key_no_edge : (nextOf (setKeyPressed 3 true { keyThree with wait := ⟨5, true⟩ })).map (·.wait) =
    some ⟨5, true⟩ ∧
    (nextOf (setKeyPressed 4 false { start with wait := ⟨5, true⟩ })).map (·.wait) = some ⟨5, true⟩ := by decide

/-- TIM-11, TIM-13, TIM-14. -/
theorem test_host_indices : faultOf (setKeyPressed 16 true start) = some (.outOfRange (.key 16) start) ∧
    hostFaultOf (hostCall (.isKeyPressed 16) start) = some (.outOfRange (.key 16) start) ∧
    faultOf (waitForKeyPress 16 start) = some (.invalidRegisterIndex 16 start) := by decide

/-- TIM-12, and TIM-9's last call. -/
theorem test_tickTimers : ((tickTimers { start with dt := 1, st := 5 }).dt, (tickTimers { start with dt := 1, st := 5 }).st)
    = (0, 4) ∧ (tickTimers start).dt = 0 := by decide

/-- DSP-13. -/
theorem test_screen_byte : (replyOf (hostCall (.deviceRead .screen 9) { start with screen := lit [(1, 9)] })).map (·.2) =
    some (.number 0x40) := by decide

/-- DSP-14's first write. -/
theorem test_screen_write : (replyOf (hostCall (.deviceWrite .screen 9 0x41) start)).map (·.1.screen) =
    some (lit [(1, 9), (1, 15)]) := by decide

/-- X8, its overlapping ranges. -/
theorem test_register_conflict :
    (faultOf (register .read ⟨.screen, 50, 150⟩ { start with readable := [⟨.memory, 0, 100⟩] })).map
    (fun f => (f.code, f.after.readable)) = some (3, [⟨.memory, 0, 100⟩]) := by decide

/-- X8, its disjoint ranges: each address is routed to one device. -/
theorem test_register_disjoint :
    (nextOf (register .read ⟨.screen, 2048, 4096⟩ { start with readable := [⟨.memory, 0, 2048⟩] })).map
    (fun t => (route t.readable 0x7FF, route t.readable 0x800, route t.readable 0x1000)) =
    some (some (.memory, 0x7FF), some (.screen, 0), none) := by decide

/-- The image of P6's first instruction, loaded as R223 says. -/
theorem test_load : (nextOf (loadProgram [0x61, 0x01] start)).map
    (fun t => (t.mem.byteAt 0x200, t.mem.byteAt 0x201, t.mem.byteAt 0x202)) = some (0x61, 0x01, 0) := by decide

/-- R40, R62, R222: construction with the defaults is the state after reset. -/
theorem test_construct : nextOf (State.construct Config.standard) = some State.reset := by decide

/-- Several parameters bad at once (log 27): the capacity is reported before the bus map, the readable half before the writable. -/
theorem test_construct_order :
    State.construct ⟨4095, 0x1000, Config.standardFont, [⟨.memory, 1, 0⟩], []⟩ = .refused (.memSizeOutOfBounds 4095) ∧
    State.construct ⟨4096, 0x1000, Config.standardFont, [⟨.input, 0, 1⟩], [⟨.memory, 1, 0⟩]⟩ = .refused .inputDeviceOnBus :=
  ⟨rfl, rfl⟩

/-- R10: a capacity below 4096 is not constructed. -/
theorem test_construct_bounds : nextOf (State.construct { Config.standard with memSize := 4095 }) = none := by decide

/-- R222, DSP-2's premise: glyph "0" is in memory at reset. -/
theorem test_font : (start.mem.byteAt 0, start.mem.byteAt 1, start.mem.byteAt 4, start.mem.byteAt 0x32,
    start.mem.byteAt 0x4F, start.mem.byteAt 0x50) = (0xF0, 0x90, 0xF0, 0xF0, 0x80, 0) := by decide

/-- A word is fetched where it is placed, also where the program counter names nothing that can be fetched. -/
theorem test_withFetchWord : (start.withFetchWord 16 0x6105).pc = 0x200 ∧
    (nextOf (tick 0x6105 { start with pc := 0x1234 })).map (·.readV 1) = some 5 ∧
    (nextOf (tick 0x6105 { start with wait := ⟨0, true⟩ })).map (·.readV 1) = some 5 := by decide

/-! ### Witnesses: states and operands that meet the statements' hypotheses, clause by clause and at boundaries -/

/-- The start state with an opcode placed. -/
def with16 (w : Nat) : State := start.withFetchWord 16 w

theorem witness_DecodeOfEncode : (Instr.jp 0xFFF).wellFormed = true ∧ (Instr.drw 15 15 15).wellFormed = true := by decide

theorem witness_EncodeOfDecode : decodeWord 0xFFFF = none ∧ decodeWord 0xFF65 = some (.ldVxMem 15) ∧
    decodeWord 0x00E0 = some .cls := by decide

theorem witness_NoWordIsCoveredByTwoRows : decodeTable[0].covers 0x00E0 = true ∧ decodeTable[33].covers 0xFF65 = true := by
  decide

theorem witness_StepRunsTheDecodedInstruction : (with16 0x6105).wait.active = false ∧
    (with16 0x6105).busRead (with16 0x6105).pc.toNat = .ok 0x61 ∧
    (with16 0x6105).busRead ((with16 0x6105).pc.toNat + 1) = .ok 0x05 ∧
    (0x6105 : Word).toNat = (0x61 : Byte).toNat * 256 + (0x05 : Byte).toNat ∧
    decodeWord 0x6105 = some (.ldImm 1 5) := by
  refine ⟨by decide, rfl, rfl, by decide, by decide⟩

theorem witness_HaltedTickDoesNothing : ({ start with wait := ⟨2, true⟩ } : State).halted := by decide

theorem witness_FailedFetch_first : ({ start with pc := 0x1000 } : State).wait.active = false ∧
    ({ start with pc := 0x1000 } : State).busRead 0x1000 = .error (.unmapped .read 0x1000) := ⟨by decide, rfl⟩

theorem witness_FailedFetch_second : ({ start with pc := 0xFFF } : State).busRead 0xFFF = .ok 0 ∧
    ({ start with pc := 0xFFF } : State).busRead (0xFFF + 1) = .error (.unmapped .read 0x1000) := ⟨rfl, rfl⟩

theorem witness_UnknownWord : start.wait.active = false ∧ start.busRead 0x200 = .ok 0 ∧ start.busRead 0x201 = .ok 0 ∧
    ∀ r ∈ decodeTable, (0 : Word) &&& r.mask ≠ r.pattern := ⟨by decide, rfl, rfl, by decide⟩

theorem witness_ErrorLeavesPcAdvanced_fetched : (faultOf (step start)).isSome = true ∧
    (match start.fetchWord with | .ok w => w == 0 | .error _ => false) = true := by decide

theorem witness_ErrorLeavesPcAdvanced_unfetched : (faultOf (step { start with pc := 0xFFF })).isSome = true ∧
    (match ({ start with pc := 0xFFF } : State).fetchWord with | .ok _ => false | .error _ => true) = true := by decide

/-- A valid state for the invariants: reset is one, and so is one with a byte stored and the screen mapped. -/
theorem witness_Valid : State.reset.Valid ∧
    (bytes 0xFFF [0xAA] { start with readable := [⟨.memory, 0, 0x1000⟩, ⟨.screen, 0x1000, 0x1100⟩] }).Valid := by decide

/-- Its tick answers a next state, so the invariant speaks of one, and an error, so it speaks of one. -/
theorem witness_EveryTickKeepsTheStateValid : (with16 0x2300).Valid ∧ (nextOf (step (with16 0x2300))).isSome = true ∧
    State.reset.Valid ∧ (faultOf (step State.reset)).isSome = true := by decide

theorem witness_PcStaysInside : (with16 0x1FFF).Valid ∧ (with16 0x1FFF).pc.toNat < (with16 0x1FFF).mem.size ∧
    (with16 0x1FFF).nextInstr ≠ some .ret ∧ (nextOf (step (with16 0x1FFF))).map (·.pc) = some 0xFFF := by decide

theorem witness_AddressRegisterStays : (with16 0xAFFF).i.toNat < 4096 ∧
    (nextOf (step (with16 0xAFFF))).map (·.i) = some 0xFFF := by decide

theorem witness_OnlyCallAndReturn : Instr.cls ≠ .ret ∧ ∀ addr, Instr.cls ≠ .call addr := by
  refine ⟨by decide, fun _ h => by cases h⟩

theorem witness_NoInstructionReads : (∀ x, Instr.cls ≠ .ldStVx x) ∧ ∀ x, Instr.cls ≠ .ldVxK x := by
  exact ⟨fun _ => Instr.noConfusion, fun _ => Instr.noConfusion⟩

theorem witness_SpecialState : (nextOf (exec (.ldDtVx 15) start)).isSome = true ∧
    (nextOf (exec (.call 0xFFF) start)).isSome = true := by decide

theorem witness_OnlyAPressEdge : ({ start with wait := ⟨5, true⟩ } : State).halted ∧
    ¬ (afterCall (.setKeyPressed 15 true) { start with wait := ⟨5, true⟩ }).halted := by decide

/-- Fifteen sprite bytes, the most an encoding asks for, up to the last address of memory. -/
theorem witness_DrawTurnsPixels : ∀ b, b < 15 → ({ start with i := 0xFF1 } : State).canRead (0xFF1 + b) = true := by decide

theorem witness_DrawFromMemory : 15 < 16 ∧ SpriteInMemory 15 start ∧
    ∀ b, b < 15 → start.busRead (start.i.toNat + b) = .ok (Memory.background b) := by
  have h : ∀ b, b < 15 → route start.readable (start.indexAddress b) = some (.memory, b) ∧ b < start.mem.size := by
    decide
  refine ⟨by decide, fun b hb => ⟨b, h b hb⟩, fun b hb => ?_⟩
  simp only [State.busRead, show route start.readable (start.i.toNat + b) = some (.memory, b) from (h b hb).1,
    State.deviceRead, Memory.read, (h b hb).2, if_true]
  rfl

/-- The first byte that cannot be read is the second, or the first. -/
theorem witness_DrawStops : (∀ b, b < 1 → ({ start with i := 0xFFF } : State).canRead (0xFFF + b) = true) ∧
    ({ start with i := 0xFFF } : State).canRead (0xFFF + 1) = false ∧
    ({ start with i := 0x1000 } : State).canRead (0x1000 + 0) = false := by decide

theorem witness_DrawingTwice : (0 : Reg) ≠ 0xF ∧ (1 : Reg) ≠ 0xF ∧ SpriteInMemory 15 start ∧
    (nextOf (exec (.drw 0 1 15) start)).isSome = true := by
  refine ⟨by decide, by decide, witness_DrawFromMemory.2.1, by decide⟩

theorem witness_ReturnPops : (bytes 0xFFE [0x12, 0x34] { start with sp := 0xFFE }).busRead 0xFFE = .ok 0x12 ∧
    (bytes 0xFFE [0x12, 0x34] { start with sp := 0xFFE }).busRead (0xFFE + 1) = .ok 0x34 := ⟨rfl, rfl⟩

theorem witness_ReturnThatCannotRead : start.busRead start.sp.toNat = .error (.unmapped .read 0x1000) ∧
    ({ start with sp := 0xFFF } : State).busRead 0xFFF = .ok 0 ∧
    ({ start with sp := 0xFFF } : State).busRead (0xFFF + 1) = .error (.unmapped .read 0x1000) := ⟨rfl, rfl, rfl⟩

theorem witness_JumpsSetPc : (Instr.jp 0xFFF).wellFormed = true ∧ start.Valid := by decide

theorem witness_CallPushes : start.mem.wf ∧ 0xFFE = (start.sp.toNat + 65534) % 65536 ∧ start.canWrite 0xFFE = true ∧
    start.canWrite (0xFFE + 1) = true := by decide

theorem witness_CallThatCannotPush_high : 0xFFFE = (({ start with sp := 0 } : State).sp.toNat + 65534) % 65536 ∧
    ({ start with sp := 0 } : State).busWrite 0xFFFE (hiByte 0x200) = .error (.unmapped .write 0xFFFE) := ⟨by decide, rfl⟩

theorem witness_CallThatCannotPush_low : 0xFFF = (({ start with sp := 0x1001 } : State).sp.toNat + 65534) % 65536 ∧
    ∃ t, ({ start with sp := 0x1001 } : State).busWrite 0xFFF (hiByte 0x200) = .ok t ∧
      t.busWrite (0xFFF + 1) (loByte 0x200) = .error (.unmapped .write 0x1000) := ⟨by decide, _, rfl, rfl⟩

theorem witness_CallThenReturn : start.mem.wf ∧ start.readable = [⟨.memory, 0, start.mem.size⟩] ∧
    start.writable = [⟨.memory, 0, start.mem.size⟩] ∧ (nextOf (exec (.call 0xFFF) start)).isSome = true := by decide

theorem witness_RegisterSkips : start.Valid ∧
    (Instr.sneReg 0 15, decide ((start.readV 0).toNat ≠ (start.readV 15).toNat)) ∈
      [(Instr.seImm 0 0, decide ((start.readV 0).toNat = (0 : Byte).toNat)),
        (Instr.sneImm 0 0, decide ((start.readV 0).toNat ≠ (0 : Byte).toNat)),
        (Instr.seReg 0 15, decide ((start.readV 0).toNat = (start.readV 15).toNat)),
        (Instr.sneReg 0 15, decide ((start.readV 0).toNat ≠ (start.readV 15).toNat))] := by decide

theorem witness_KeySkips : (regs [(5, 0xFF)] start).Valid ∧ ((regs [(5, 0xFF)] start).readV 5).toNat % 16 = (15 : Fin 16).val := by
  decide

theorem witness_AluClauses : (0xE : Reg) ≠ 0xF ∧ (0xF : Reg) = 0xF := by decide

theorem witness_AddressRegisterInstructions : (Instr.ldI 0xFFF).wellFormed = true := by decide

theorem witness_DecimalDigits : (regs [(4, 255)] { start with i := 0xFFD }).mem.wf ∧
    ((regs [(4, 255)] start).readV 4).toNat = (2 : Byte).toNat * 100 + (5 : Byte).toNat * 10 + (5 : Byte).toNat ∧
    (5 : Byte).toNat < 10 ∧ start.canWrite 0xFFD = true ∧ start.canWrite (0xFFD + 1) = true ∧
    start.canWrite (0xFFD + 2) = true := by decide

theorem witness_RegisterBlockIsStored : start.mem.wf ∧
    ∀ k, k ≤ (15 : Reg).val → ({ start with i := 0xFF0 } : State).canWrite (0xFF0 + k) = true := by decide

theorem witness_RegisterBlockIsLoaded :
    ∀ k, k ≤ (15 : Reg).val → ({ start with i := 0xFF0 } : State).canRead (0xFF0 + k) = true := by decide

/-- `Fx55` stops at its third byte (IDX-13), and at its first. -/
theorem witness_StoresStop_block : start.mem.wf ∧
    2 < ((List.range ((3 : Reg).val + 1)).map fun k => start.readV (Fin.ofNat 16 k)).length ∧
    (∀ j, j < 2 → ({ start with i := 0xFFE } : State).canWrite (0xFFE + j) = true) ∧
    ({ start with i := 0xFFE } : State).canWrite (0xFFE + 2) = false ∧
    ({ start with i := 0x1000 } : State).canWrite (0x1000 + 0) = false := by decide

/-- A block whose third byte is routed past its device's end: its error is `OutOfRange`, not `AddressUnmapped` (R65). -/
theorem witness_StoresStop_pastTheEnd :
    let s : State := { start with i := 0xFFE, writable := [⟨.memory, 0, 0x1100⟩] }
    s.mem.wf ∧ (∀ j, j < 2 → s.canWrite (0xFFE + j) = true) ∧ s.canWrite (0xFFE + 2) = false ∧
    s.busWrite (0xFFE + 2) 0 = .error (.outOfRange .memory 0x1000) := by decide

/-- `Fx33` stops at its third byte (IDX-9). -/
theorem witness_StoresStop_digits : 2 < [(1 : Byte), 2, 3].length ∧
    ((regs [(4, 123)] start).readV 4).toNat = (1 : Byte).toNat * 100 + (2 : Byte).toNat * 10 + (3 : Byte).toNat ∧
    (2 : Byte).toNat < 10 ∧ (3 : Byte).toNat < 10 := by decide

theorem witness_LoadsStop : 2 ≤ (3 : Reg).val ∧
    (∀ j, j < 2 → ({ start with i := 0xFFE } : State).canRead (0xFFE + j) = true) ∧
    ({ start with i := 0xFFE } : State).canRead (0xFFE + 2) = false := by decide

/-- All sixteen registers, stored and loaded at `0x300`: the state after the store serves as the state before the load. -/
theorem witness_StoreThenLoad :
    (∀ k, k ≤ (15 : Reg).val → route ({ start with i := 0x300 } : State).writable (0x300 + k) = some (.memory, 0x300 + k) ∧
      0x300 + k < start.mem.size ∧
      route ({ start with i := 0x300 } : State).readable (0x300 + k) = some (.memory, 0x300 + k)) ∧
    (nextOf (exec (.ldMemVx 15) { start with i := 0x300 })).map (·.i) = some 0x300 := by decide

theorem witness_StoreThenLoad_distinct : ∀ j, j ≤ (15 : Reg).val → ∀ k, k ≤ (15 : Reg).val →
    route ({ start with i := 0x300 } : State).writable (0x300 + j) =
      route ({ start with i := 0x300 } : State).writable (0x300 + k) → j = k := by decide

theorem witness_KeyEvents : ({ start with wait := ⟨5, true⟩ } : State).halted ∧ true = true ∧
    ({ start with wait := ⟨5, true⟩ } : State).keyPressed 15 = false ∧ ¬ start.halted ∧ 16 ≤ 16 := by decide

/-- The last byte inside memory, and the first outside it. -/
theorem witness_MemoryReadsBack : start.mem.wf ∧ 4095 < start.mem.size ∧ start.mem.size ≤ 4096 := by decide

theorem witness_StoresAreSeen : start.mem.wf ∧ route start.writable 0xFFF = some (.memory, 0xFFF) ∧
    (∃ t, start.busWrite 0xFFF 0xAA = .ok t) ∧ route start.readable 0xFFF = some (.memory, 0xFFF) ∧
    route start.readable 0xFFE ≠ some (.memory, 0xFFF) := ⟨by decide, by decide, ⟨_, rfl⟩, by decide, by decide⟩

theorem witness_ScreenBytes : 255 < 256 := by decide

/-- An inverted range, the Input Device, a range that overlaps by one address, and one that touches. -/
theorem witness_Registration : 0x1000 < 0x1001 ∧ 0x1000 ≤ 0x1000 ∧ 0xFFF ≤ 0x1100 ∧
    (∃ e ∈ start.readable, e.upper > 0xFFF ∧ 0x1100 > e.lower) ∧
    (¬ ∃ e ∈ start.readable, e.upper > 0x1000 ∧ 0x1100 > e.lower) ∧
    (∃ e ∈ start.writable, e.upper > 0xFFF ∧ 0x1100 > e.lower) ∧
    ¬ ∃ e ∈ start.writable, e.upper > 0x1000 ∧ 0x1100 > e.lower := by decide

/-- Where both refusals apply, the range's is the answer; a range that is not inverted shows the device's (D21); a range that is
refused and would conflict is refused (log 26). -/
theorem witness_Registration_refusals :
    register .read ⟨.input, 0x1001, 0x1000⟩ start = .refused (.invertedRange 0x1001 0x1000) ∧
    register .write ⟨.memory, 0x1001, 0x1000⟩ start = .refused (.invertedRange 0x1001 0x1000) ∧
    register .write ⟨.input, 0x1000, 0x1000⟩ start = .refused .inputDeviceOnBus ∧
    (∃ e ∈ start.readable, e.upper > 0x800 ∧ 0x7FF > e.lower) ∧
    register .read ⟨.memory, 0x800, 0x7FF⟩ start = .refused (.invertedRange 0x800 0x7FF) ∧
    register .read ⟨.input, 0x7FF, 0x800⟩ start = .refused .inputDeviceOnBus :=
  ⟨rfl, rfl, rfl, by decide, rfl, rfl⟩

/-- The last address of the entry and the first past it, in both registries. -/
theorem witness_BusRoutes : registryValid start.readable ∧ registryValid start.writable ∧
    (∃ e ∈ start.readable, e.lower ≤ 0xFFF ∧ 0xFFF < e.upper) ∧
    (∀ e ∈ start.readable, ¬ (e.lower ≤ 0x1000 ∧ 0x1000 < e.upper)) ∧
    (∃ e ∈ start.writable, e.lower ≤ 0xFFF ∧ 0xFFF < e.upper) ∧
    ∀ e ∈ start.writable, ¬ (e.lower ≤ 0x1000 ∧ 0x1000 < e.upper) := by decide

/-- The last local address of each device and the first past it. -/
theorem witness_BusRoutes_devices : 0xFFF < start.capacity .memory ∧ start.capacity .memory ≤ 0x1000 ∧
    255 < start.capacity .screen ∧ start.capacity .screen ≤ 256 := by decide

/-- An image that fills memory from `0x200` on, and one a byte too long. -/
theorem witness_ProgramLoad : start.mem.wf ∧ 0x200 ≤ start.mem.size ∧
    (List.replicate 3584 (0 : Byte)).length ≤ start.mem.size - 0x200 ∧
    start.mem.size - 0x200 < (List.replicate 3585 (0 : Byte)).length := by
  refine ⟨by decide, by decide, ?_, ?_⟩ <;> rw [List.length_replicate] <;> decide

theorem witness_RegisterAccessors : 255 < 256 ∧ 256 ≤ 256 ∧ 16 ≤ 16 := by decide

/-- Where the index and the value are both out of range, the index's error is the answer (log 13). -/
theorem witness_RegisterAccessors_both :
    hostFaultOf (hostCall (.writeReg (.v 16) 256) start) = some (.invalidRegisterIndex 16 start) := by decide

end Sys2Proof.Machine.Tests
end

namespace Sys2Proof.Machine

/-! PROOFS. The Memory Device and the Screen Device as the bus sees them (20_memory.md R42 to R44, R54 to R56). -/

/-! ### The Memory Device -/

theorem memory_read_inside {m : Memory} {a : Nat} (ha : a < m.size) : m.read a = .ok (m.byteAt a) := if_pos ha

theorem memory_read_outside {m : Memory} {a : Nat} (ha : m.size ≤ a) : m.read a = .error (.outOfRange .memory a) :=
  if_neg (Nat.not_lt.2 ha)

theorem memory_write_inside {m : Memory} {a : Nat} (b : Byte) (ha : a < m.size) :
    m.write a b = .ok (m.setByte a b) := if_pos ha

theorem memory_write_outside {m : Memory} {a : Nat} (b : Byte) (ha : m.size ≤ a) :
    m.write a b = .error (.outOfRange .memory a) := if_neg (Nat.not_lt.2 ha)

theorem byteAt_setByte_self {m : Memory} (hm : m.wf) (a : Nat) (b : Byte) : (m.setByte a b).byteAt a = b := by
  rw [byteAt_setByte hm, if_pos rfl]

theorem byteAt_setByte_ne {m : Memory} (hm : m.wf) {a c : Nat} (b : Byte) (hc : c ≠ a) :
    (m.setByte a b).byteAt c = m.byteAt c := by
  rw [byteAt_setByte hm, if_neg hc.symm]

/-- The device answers alike at every other address, inside its capacity or outside (R43: no aliasing). -/
theorem read_setByte_ne {m : Memory} (hm : m.wf) {a c : Nat} (b : Byte) (hc : c ≠ a) :
    (m.setByte a b).read c = m.read c := by
  simp only [Memory.read, setByte_size, byteAt_setByte_ne hm b hc]

/-- A repeated write leaves the very same data (R44), since canonical memories that read the same are the same. -/
theorem setByte_setByte_self {m : Memory} (hm : m.wf) {a : Nat} (b : Byte) (ha : a < m.size) :
    (m.setByte a b).setByte a b = m.setByte a b := by
  have hn : (m.setByte a b).wf := setByte_wf hm b ha
  refine memory_ext (setByte_wf hn b ha) hn rfl fun x => ?_
  rw [byteAt_setByte hn]
  split
  · next hx => rw [← hx, byteAt_setByte_self hm]
  · rfl

/-- Settles O53: inside the capacity a write is `setByte`, whose laws are the clauses; outside, both accesses fail. -/
theorem memoryReadsBackWhatWasWritten : Obligations.MemoryReadsBackWhatWasWritten := by
  intro m a b hm
  refine ⟨fun ha => ⟨memory_read_inside ha, m.setByte a b, memory_write_inside b ha, setByte_wf hm b ha, rfl,
    byteAt_setByte_self hm a b, ?readBack, ?others, ?again⟩,
    fun ha => ⟨memory_write_outside b ha, memory_read_outside ha⟩⟩
  case readBack => rw [memory_read_inside (m := m.setByte a b) ha, byteAt_setByte_self hm]
  case others => exact fun c hc => ⟨byteAt_setByte_ne hm b hc, read_setByte_ne hm b hc⟩
  case again => rw [memory_write_inside (m := m.setByte a b) b ha, setByte_setByte_self hm b ha]

/-! ### The Screen Device -/

theorem screen_write_inside (p : Screen) {k : Nat} (v : Byte) (hk : k < 256) : p.write k v = .ok (p.xorByte k v) :=
  if_pos hk

/-- A pixel after a byte is XORed in (R56): turned over where the byte has a 1-bit in the pixel's place of `S[k]` (R54). -/
theorem getPixel_xorByte (p : Screen) {k : Nat} (v : Byte) (hk : k < 256) (r : Fin 32) (c : Fin 64) :
    (p.xorByte k v).getPixel r c =
      (p.getPixel r c ^^ (decide (r.val * 8 + c.val / 8 = k) && v.getLsbD (7 - c.val % 8))) := by
  have hb : r.val * 8 + c.val / 8 < 256 := by omega
  rw [getPixel_eq_byteAt, getPixel_eq_byteAt, byteAt_xorByte p hb hk]
  by_cases h : k = r.val * 8 + c.val / 8
  · simp [h]
  · simp [h, Ne.symm h]

/-- XOR undoes itself pixel by pixel (R56). -/
theorem xorByte_xorByte_self (p : Screen) {k : Nat} (v : Byte) (hk : k < 256) :
    (p.xorByte k v).xorByte k v = p := by
  refine screen_ext fun r c => ?_
  rw [getPixel_xorByte _ v hk, getPixel_xorByte p v hk, Bool.xor_assoc, Bool.xor_self, Bool.xor_false]

/-- Settles O55: the byte view's alias of a pixel, and a write as an XOR of pixels that a second one undoes. -/
theorem screenBytesAliasThePixels : Obligations.ScreenBytesAliasThePixels := by
  refine ⟨fun p r c => (getPixel_eq_byteAt p r c).symm, fun p k v hk => ?_⟩
  refine ⟨p.xorByte k v, screen_write_inside p v hk, ?undone, getPixel_xorByte p v hk⟩
  case undone => rw [screen_write_inside _ v hk, xorByte_xorByte_self p v hk]

/-! ### Clearing the screen -/

theorem exec_cls (s : State) : exec .cls s = .next (s.writeScreen s.screen.clear) := rfl

/-- Settles O22: `00E0` replaces the screen with the cleared one and nothing else. -/
theorem clearScreenTurnsEveryPixelOff : Obligations.ClearScreenTurnsEveryPixelOff :=
  ⟨by decide, fun s => ⟨s.writeScreen s.screen.clear, exec_cls s, getPixel_clear s.screen,
    onlyChanges_writeScreen s s.screen.clear⟩⟩

end Sys2Proof.Machine

namespace Sys2Proof.Machine

/-! PROOFS. The register loads and the arithmetic-logic group (44_alu.md R140 to R150). -/

/-! ### Opcodes as R82's patterns write them -/

theorem append_toNat {m n : Nat} (a : BitVec m) (b : BitVec n) : (a ++ b).toNat = a.toNat * 2 ^ n + b.toNat := by
  rw [BitVec.toNat_append, ← Nat.shiftLeft_add_eq_or_of_lt b.isLt, Nat.shiftLeft_eq]

theorem regBits_toNat (x : Reg) : (regBits x).toNat = x.val := Nat.mod_eq_of_lt x.isLt

/-- Format `F_XKK` field by field: `oooo xxxx kkkk kkkk`. -/
theorem encodeXkk_eq_append (op : BitVec 4) (x : Reg) (kk : Byte) :
    encodeXkk op.toNat x kk = op ++ regBits x ++ kk := by
  apply BitVec.eq_of_toNat_eq
  rw [encodeXkk_toNat op.isLt, append_toNat, append_toNat, regBits_toNat]
  omega

/-- Formats `F_XY` and `F_XYN` field by field: `oooo xxxx yyyy mmmm`. -/
theorem encodeXyn_eq_append (op : BitVec 4) (x y : Reg) (low : BitVec 4) :
    encodeXyn op.toNat x y low.toNat = op ++ regBits x ++ regBits y ++ low := by
  apply BitVec.eq_of_toNat_eq
  rw [encodeXyn_toNat op.isLt low.isLt, append_toNat, append_toNat, append_toNat, regBits_toNat, regBits_toNat]
  omega

/-! ### What each instruction of the group does, as a write of registers -/

theorem exec_ldImm (x : Reg) (kk : Byte) (s : State) : exec (.ldImm x kk) s = .next (s.writeV x kk) := rfl

theorem exec_addImm (x : Reg) (kk : Byte) (s : State) :
    exec (.addImm x kk) s = .next (s.writeV x (s.readV x + kk)) := rfl

theorem exec_ldReg (x y : Reg) (s : State) : exec (.ldReg x y) s = .next (s.writeV x (s.readV y)) := rfl

theorem exec_orReg (x y : Reg) (s : State) :
    exec (.orReg x y) s = .next (s.writeV x (s.readV x ||| s.readV y)) := rfl

theorem exec_andReg (x y : Reg) (s : State) :
    exec (.andReg x y) s = .next (s.writeV x (s.readV x &&& s.readV y)) := rfl

theorem exec_xorReg (x y : Reg) (s : State) :
    exec (.xorReg x y) s = .next (s.writeV x (s.readV x ^^^ s.readV y)) := rfl

theorem exec_addReg (x y : Reg) (s : State) : exec (.addReg x y) s =
    .next (resultThenFlag x (s.readV x + s.readV y) (carryFlag (s.readV x) (s.readV y)) s) := rfl

theorem exec_sub (x y : Reg) (s : State) : exec (.sub x y) s =
    .next (resultThenFlag x (s.readV x - s.readV y) (notBorrowFlag (s.readV x) (s.readV y)) s) := rfl

theorem exec_subn (x y : Reg) (s : State) : exec (.subn x y) s =
    .next (resultThenFlag x (s.readV y - s.readV x) (notBorrowFlag (s.readV y) (s.readV x)) s) := rfl

/-! ### A result, then a flag -/

/-- The flag is written last, so it is what `V[0xF]` holds, whatever `x` is. -/
@[simp] theorem readV_resultThenFlag_flag (x : Reg) (result flag : Byte) (s : State) :
    (resultThenFlag x result flag s).readV 0xF = flag :=
  readV_writeV_self (s.writeV x result) 0xF flag

theorem readV_resultThenFlag_result {x : Reg} (hx : x ≠ 0xF) (result flag : Byte) (s : State) :
    (resultThenFlag x result flag s).readV x = result :=
  (readV_writeV_ne (s.writeV x result) flag hx.symm).trans (readV_writeV_self s x result)

theorem onlyChanges_resultThenFlag (x : Reg) (result flag : Byte) (s : State) :
    OnlyChanges [x, 0xF] [] s (resultThenFlag x result flag s) :=
  (onlyChanges_writeV s x result).trans (onlyChanges_writeV (s.writeV x result) 0xF flag)

/-! ### Flags and differences as arithmetic -/

theorem flagByte_toNat (p : Prop) [Decidable p] : (flagByte (decide p)).toNat = if p then 1 else 0 := by
  by_cases h : p <;> simp [flagByte, h]

theorem carryFlag_toNat (a b : Byte) : (carryFlag a b).toNat = if 256 ≤ a.toNat + b.toNat then 1 else 0 :=
  flagByte_toNat _

/-- No borrow is `a ≥ b`, equality included (R148). -/
theorem notBorrowFlag_toNat (a b : Byte) : (notBorrowFlag a b).toNat = if b.toNat ≤ a.toNat then 1 else 0 := by
  rw [notBorrowFlag, flagByte_toNat]
  simp only [Int.sub_nonneg, Int.ofNat_le]

theorem sub_toNat_emod (a b : Byte) : ((a - b).toNat : Int) = (a.toNat - b.toNat : Int) % 256 := by
  have ha := a.isLt
  have hb := b.isLt
  rw [BitVec.toNat_sub]
  omega

/-- `8xy5` and `8xy7` end alike: the difference of the operands in `V[x]`, then the NOT-borrow over it in `V[0xF]`. -/
theorem difference_then_notBorrow (x : Reg) (a b : Byte) (s t : State)
    (ht : t = resultThenFlag x (a - b) (notBorrowFlag a b) s) :
    (x ≠ 0xF → ((t.readV x).toNat : Int) = (a.toNat - b.toNat : Int) % 256) ∧
      (t.readV 0xF).toNat = (if b.toNat ≤ a.toNat then 1 else 0) ∧ OnlyChanges [x, 0xF] [] s t := by
  subst ht
  refine ⟨fun hx => ?difference, ?notBorrow, onlyChanges_resultThenFlag ..⟩
  case difference => rw [readV_resultThenFlag_result hx, sub_toNat_emod]
  case notBorrow => rw [readV_resultThenFlag_flag, notBorrowFlag_toNat]

/-! ### The obligations -/

/-- Settles O38: the sum stands unless the carry is written over it. -/
theorem addWritesTheSumThenTheCarry : Obligations.AddWritesTheSumThenTheCarry := by
  intro x y s
  refine ⟨encodeXyn_eq_append 0b1000#4 x y 0b0100#4, _, exec_addReg x y s, fun hx => ?sum, ?carry,
    onlyChanges_resultThenFlag ..⟩
  case sum => rw [readV_resultThenFlag_result hx, BitVec.toNat_add]
  case carry => rw [readV_resultThenFlag_flag, carryFlag_toNat]

/-- Settles O39: one law of a difference and its NOT-borrow, with the operands in either order. -/
theorem subtractsWriteTheDifferenceThenNotBorrow : Obligations.SubtractsWriteTheDifferenceThenNotBorrow :=
  fun x y s => ⟨encodeXyn_eq_append 0b1000#4 x y 0b0101#4, encodeXyn_eq_append 0b1000#4 x y 0b0111#4,
    ⟨_, exec_sub x y s, difference_then_notBorrow x (s.readV x) (s.readV y) s _ rfl⟩,
    ⟨_, exec_subn x y s, difference_then_notBorrow x (s.readV y) (s.readV x) s _ rfl⟩⟩

/-- Settles O35: both are a single register write. -/
theorem registerLoadsWriteOneRegister : Obligations.RegisterLoadsWriteOneRegister :=
  fun x y kk s => ⟨encodeXkk_eq_append 0b0110#4 x kk, encodeXyn_eq_append 0b1000#4 x y 0b0000#4,
    ⟨_, exec_ldImm x kk s, readV_writeV_self .., onlyChanges_writeV ..⟩,
    ⟨_, exec_ldReg x y s, readV_writeV_self .., onlyChanges_writeV ..⟩⟩

/-- Settles O36: a single register write, of a sum that wraps as a byte does. -/
theorem addImmediateWrapsWithoutAFlag : Obligations.AddImmediateWrapsWithoutAFlag := by
  intro x kk s
  refine ⟨encodeXkk_eq_append 0b0111#4 x kk, _, exec_addImm x kk s, ?sum, onlyChanges_writeV ..⟩
  case sum => rw [readV_writeV_self, BitVec.toNat_add]

/-- Settles O37: each is a single register write, of a byte whose bits combine the operands' bits. -/
theorem bitwiseInstructionsWriteNoFlag : Obligations.BitwiseInstructionsWriteNoFlag := by
  intro x y s
  refine ⟨encodeXyn_eq_append 0b1000#4 x y 0b0001#4, encodeXyn_eq_append 0b1000#4 x y 0b0010#4,
    encodeXyn_eq_append 0b1000#4 x y 0b0011#4, ⟨_, exec_orReg x y s, onlyChanges_writeV .., fun j => ?or⟩,
    ⟨_, exec_andReg x y s, onlyChanges_writeV .., fun j => ?and⟩,
    ⟨_, exec_xorReg x y s, onlyChanges_writeV .., fun j => ?xor⟩⟩
  case or => rw [readV_writeV_self, BitVec.getLsbD_or]
  case and => rw [readV_writeV_self, BitVec.getLsbD_and]
  case xor => rw [readV_writeV_self, BitVec.getLsbD_xor]

end Sys2Proof.Machine

namespace Sys2Proof.Machine

/-! PROOFS. The address register (45_index_memory.md R160 to R162). -/

/-! ### The opcodes of the group as R82's patterns write them -/

/-- Format `F_NNN` field by field: `oooo nnnn nnnn nnnn`. -/
theorem encodeNnn_eq_append (op : BitVec 4) {addr : Word} (h : fitsAddr addr = true) :
    encodeNnn op.toNat addr = op ++ addr.setWidth 12 := by
  obtain ⟨hn, ha⟩ := encodeNnn_toNat op.isLt h
  apply BitVec.eq_of_toNat_eq
  rw [hn, append_toNat, BitVec.toNat_setWidth, Nat.mod_eq_of_lt ha]
  omega

/-- Format `F_X` field by field: `oooo xxxx ssss ssss`. -/
theorem encodeX_eq_append (op : BitVec 4) (x : Reg) (minor : BitVec 8) :
    encodeX op.toNat x minor.toNat = op ++ regBits x ++ minor := by
  apply BitVec.eq_of_toNat_eq
  rw [encodeX_toNat op.isLt minor.isLt, append_toNat, append_toNat, regBits_toNat]
  omega

/-! ### What each instruction does, as a write of `I` -/

theorem exec_ldI (addr : Word) (s : State) : exec (.ldI addr) s = .next (s.writeI addr) := rfl

theorem exec_addI (x : Reg) (s : State) : exec (.addI x) s = .next (s.writeI (indexSum s.i (s.readV x))) := rfl

theorem exec_ldF (x : Reg) (s : State) : exec (.ldF x) s = .next (s.writeI (glyphAddress (s.readV x))) := rfl

/-! ### The written addresses as arithmetic -/

/-- The sum is reduced below 4096 before it is made a word, so the word holds it whole. -/
theorem indexSum_toNat (i : Word) (b : Byte) : (indexSum i b).toNat = (i.toNat + b.toNat) % 4096 := by
  rw [indexSum, BitVec.toNat_ofNat]
  omega

/-- A glyph's address is at most `15 * 5 = 75`, so the word holds it whole. -/
theorem glyphAddress_toNat (b : Byte) : (glyphAddress b).toNat = b.toNat % 16 * 5 := by
  rw [glyphAddress, BitVec.toNat_ofNat]
  omega

/-! ### The obligation -/

/-- Settles O42: each is a single write of `I`, whose frame says that nothing else, `V[0xF]` included, is written. -/
theorem addressRegisterInstructionsWriteI : Obligations.AddressRegisterInstructionsWriteI := by
  intro addr x s
  refine ⟨fun h => ⟨encodeNnn_eq_append 0b1010#4 h, ?addrFits⟩, encodeX_eq_append 0b1111#4 x 0b00011110#8,
    encodeX_eq_append 0b1111#4 x 0b00101001#8, ⟨_, exec_ldI addr s, writeI_i .., onlyChanges_writeI ..⟩,
    ⟨_, exec_addI x s, ?sum, onlyChanges_writeI ..⟩, ⟨_, exec_ldF x s, ?glyph, onlyChanges_writeI ..⟩⟩
  case addrFits => exact Nat.le_of_lt_succ (encodeNnn_toNat (op := 0xA) (by decide) h).2
  case sum => rw [writeI_i, indexSum_toNat]
  case glyph => rw [writeI_i, glyphAddress_toNat]

end Sys2Proof.Machine

namespace Sys2Proof.Machine

/-! PROOFS. The timer moves (46_timer_input.md R170, R172, R173). -/

/-! ### What each instruction does, as a write of a register or a timer -/

theorem exec_ldVxDt (x : Reg) (s : State) : exec (.ldVxDt x) s = .next (s.writeV x s.dt) := rfl

theorem exec_ldDtVx (x : Reg) (s : State) : exec (.ldDtVx x) s = .next (s.writeDt (s.readV x)) := rfl

theorem exec_ldStVx (x : Reg) (s : State) : exec (.ldStVx x) s = .next (s.writeSt (s.readV x)) := rfl

/-! ### The obligation -/

/-- Settles O49: each is a single write, and the frame of `Fx07`'s register write keeps `DT`, so a second read finds the
same value. -/
theorem timerInstructionsMoveOneByte : Obligations.TimerInstructionsMoveOneByte :=
  fun x s => ⟨encodeX_eq_append 0b1111#4 x 0b00000111#8, encodeX_eq_append 0b1111#4 x 0b00010101#8,
    encodeX_eq_append 0b1111#4 x 0b00011000#8,
    ⟨_, exec_ldVxDt x s, readV_writeV_self .., onlyChanges_writeV ..⟩,
    ⟨_, exec_ldDtVx x s, writeDt_dt .., onlyChanges_writeDt ..⟩,
    ⟨_, exec_ldStVx x s, writeSt_st .., onlyChanges_writeSt ..⟩⟩

end Sys2Proof.Machine

namespace Sys2Proof

/-! PROOFS. The decoder and the encoder (30_encoding.md R81 to R87): the rows of the opcode map exclude one another, and
each is the inverse of the encoder. -/

/-! ### The rows exclude one another -/

/-- Two rows that cover one word agree on the bits both masks fix. -/
theorem patterns_agree_of_covers {r q : DecodeRow} {w : Word} (hr : r.covers w = true) (hq : q.covers w = true) :
    r.pattern &&& q.mask = q.pattern &&& r.mask := by
  simp only [DecodeRow.covers, beq_iff_eq] at hr hq
  rw [← hr, ← hq, BitVec.and_assoc, BitVec.and_assoc, BitVec.and_comm r.mask]

/-- Any two rows of the opcode map differ in a bit that both masks fix (R87). -/
theorem decodeTable_patterns_differ : ∀ j k : Fin decodeTable.length, j ≠ k →
    decodeTable[j].pattern &&& decodeTable[k].mask ≠ decodeTable[k].pattern &&& decodeTable[j].mask := by
  decide

/-- Settles O5: rows that share a word agree on the bits both fix, and no two rows of the table do. -/
theorem noWordIsCoveredByTwoRows : Obligations.NoWordIsCoveredByTwoRows := by
  intro w j k hj hk hcj hck
  by_contra hne
  exact decodeTable_patterns_differ ⟨j, hj⟩ ⟨k, hk⟩ (by simpa using hne) (patterns_agree_of_covers hcj hck)

/-- The row that covers a word is the one the decoder finds: the scan order changes nothing (R87). -/
theorem decodeWord_of_covers {r : DecodeRow} (hr : r ∈ decodeTable) {w : Word} (hc : r.covers w = true) :
    decodeWord w = some (r.build w) := by
  cases hf : decodeTable.find? (·.covers w) with
  | none => exact absurd hc (List.find?_eq_none.1 hf r hr)
  | some q =>
    obtain ⟨j, hj, rfl⟩ := List.getElem_of_mem hr
    obtain ⟨k, hk, rfl⟩ := List.getElem_of_mem (List.mem_of_find?_eq_some hf)
    obtain rfl := noWordIsCoveredByTwoRows w j k hj hk hc (by simpa using List.find?_some hf)
    rw [decodeWord, hf]
    rfl

/-! ### Decoding an encoding -/

/-- Every well-formed instruction's opcode is covered by a row that builds it back (R82, R86). -/
theorem encodesOwnRow (i : Instr) : Laws.EncodesOwnRow.Statement i := by
  cases i with
  | cls => exact Laws.EncodesOwnRow.cls
  | ret => exact Laws.EncodesOwnRow.ret
  | jp addr => exact Laws.EncodesOwnRow.jp addr
  | call addr => exact Laws.EncodesOwnRow.call addr
  | seImm x kk => exact Laws.EncodesOwnRow.seImm x kk
  | sneImm x kk => exact Laws.EncodesOwnRow.sneImm x kk
  | seReg x y => exact Laws.EncodesOwnRow.seReg x y
  | ldImm x kk => exact Laws.EncodesOwnRow.ldImm x kk
  | addImm x kk => exact Laws.EncodesOwnRow.addImm x kk
  | ldReg x y => exact Laws.EncodesOwnRow.ldReg x y
  | orReg x y => exact Laws.EncodesOwnRow.orReg x y
  | andReg x y => exact Laws.EncodesOwnRow.andReg x y
  | xorReg x y => exact Laws.EncodesOwnRow.xorReg x y
  | addReg x y => exact Laws.EncodesOwnRow.addReg x y
  | sub x y => exact Laws.EncodesOwnRow.sub x y
  | shr x y => exact Laws.EncodesOwnRow.shr x y
  | subn x y => exact Laws.EncodesOwnRow.subn x y
  | shl x y => exact Laws.EncodesOwnRow.shl x y
  | sneReg x y => exact Laws.EncodesOwnRow.sneReg x y
  | ldI addr => exact Laws.EncodesOwnRow.ldI addr
  | jpV0 addr => exact Laws.EncodesOwnRow.jpV0 addr
  | rnd x kk => exact Laws.EncodesOwnRow.rnd x kk
  | drw x y n => exact Laws.EncodesOwnRow.drw x y n
  | skp x => exact Laws.EncodesOwnRow.skp x
  | sknp x => exact Laws.EncodesOwnRow.sknp x
  | ldVxDt x => exact Laws.EncodesOwnRow.ldVxDt x
  | ldVxK x => exact Laws.EncodesOwnRow.ldVxK x
  | ldDtVx x => exact Laws.EncodesOwnRow.ldDtVx x
  | ldStVx x => exact Laws.EncodesOwnRow.ldStVx x
  | addI x => exact Laws.EncodesOwnRow.addI x
  | ldF x => exact Laws.EncodesOwnRow.ldF x
  | ldB x => exact Laws.EncodesOwnRow.ldB x
  | ldMemVx x => exact Laws.EncodesOwnRow.ldMemVx x
  | ldVxMem x => exact Laws.EncodesOwnRow.ldVxMem x

theorem decodeWord_encode {i : Instr} (h : i.wellFormed = true) : decodeWord (encode i) = some i := by
  obtain ⟨r, hr, hc, hb⟩ := encodesOwnRow i h
  rw [decodeWord_of_covers hr hc, hb]

/-- Settles O2: the two bytes rebuild the opcode, and the one row that covers it builds the instruction. -/
theorem decodeOfEncodeIsTheInstruction : Obligations.DecodeOfEncodeIsTheInstruction := by
  intro i rest h
  simp only [encodeBytes, List.cons_append, List.nil_append, decode, wordOfBytes_split, decodeWord_encode h]

/-! ### Encoding a decoding -/

theorem fieldX_val (w : Word) : (fieldX w).val = w.toNat / 256 % 16 := rfl

theorem fieldY_val (w : Word) : (fieldY w).val = w.toNat / 16 % 16 := rfl

theorem fieldN_lt (w : Word) : fieldN w < 16 := Nat.mod_lt _ (by decide)

theorem fieldKk_toNat (w : Word) : (fieldKk w).toNat = w.toNat % 256 := loByte_toNat w

theorem fieldAddr_toNat (w : Word) : (fieldAddr w).toNat = w.toNat % 4096 := by
  rw [fieldAddr, BitVec.toNat_ofNat]
  omega

theorem fitsAddr_fieldAddr (w : Word) : fitsAddr (fieldAddr w) = true := by
  simpa [fitsAddr, BitVec.lt_def] using fieldAddr_lt w

theorem fitsCount_fieldN (w : Word) : fitsCount (fieldN w) = true := by
  simpa [fitsCount] using fieldN_lt w

/-! The masks' conditions, read as the major nibble and the low bits of the word. -/

theorem major_of_and_F000 {w : Word} {op : Nat} (h : (w &&& 0xF000).toNat = op * 4096) : w.toNat / 4096 = op := by
  rw [and_F000] at h
  exact Nat.eq_of_mul_eq_mul_right (by decide) h

theorem major_minor_of_and_F00F {w : Word} {op low : Nat} (hlow : low < 16)
    (h : (w &&& 0xF00F).toNat = op * 4096 + low) : w.toNat / 4096 = op ∧ w.toNat % 16 = low := by
  rw [and_F00F] at h
  omega

theorem major_byte_of_and_F0FF {w : Word} {op low : Nat} (hlow : low < 256)
    (h : (w &&& 0xF0FF).toNat = op * 4096 + low) : w.toNat / 4096 = op ∧ w.toNat % 256 = low := by
  rw [and_F0FF] at h
  omega

/-- Format `F_NNN` puts back the fields of a word with that major nibble. -/
theorem encodeNnn_fields {op : Nat} (hop : op < 16) {w : Word} (h : (w &&& 0xF000).toNat = op * 4096) :
    encodeNnn op (fieldAddr w) = w := by
  have hmajor := major_of_and_F000 h
  apply BitVec.eq_of_toNat_eq
  rw [(encodeNnn_toNat hop (fitsAddr_fieldAddr w)).1, fieldAddr_toNat]
  omega

theorem encodeXkk_fields {op : Nat} (hop : op < 16) {w : Word} (h : (w &&& 0xF000).toNat = op * 4096) :
    encodeXkk op (fieldX w) (fieldKk w) = w := by
  have hmajor := major_of_and_F000 h
  apply BitVec.eq_of_toNat_eq
  rw [encodeXkk_toNat hop, fieldX_val, fieldKk_toNat]
  omega

theorem encodeXyn_fields {op : Nat} (hop : op < 16) {w : Word} (h : (w &&& 0xF000).toNat = op * 4096) :
    encodeXyn op (fieldX w) (fieldY w) (fieldN w) = w := by
  have hmajor := major_of_and_F000 h
  apply BitVec.eq_of_toNat_eq
  rw [encodeXyn_toNat hop (fieldN_lt w), fieldX_val, fieldY_val, fieldN]
  omega

theorem encodeXy_fields {op low : Nat} (hop : op < 16) (hlow : low < 16) {w : Word}
    (h : (w &&& 0xF00F).toNat = op * 4096 + low) : encodeXyn op (fieldX w) (fieldY w) low = w := by
  obtain ⟨hmajor, hminor⟩ := major_minor_of_and_F00F hlow h
  apply BitVec.eq_of_toNat_eq
  rw [encodeXyn_toNat hop hlow, fieldX_val, fieldY_val]
  omega

theorem encodeX_fields {op minor : Nat} (hop : op < 16) (hm : minor < 256) {w : Word}
    (h : (w &&& 0xF0FF).toNat = op * 4096 + minor) : encodeX op (fieldX w) minor = w := by
  obtain ⟨hmajor, hbyte⟩ := major_byte_of_and_F0FF hm h
  apply BitVec.eq_of_toNat_eq
  rw [encodeX_toNat hop hm, fieldX_val]
  omega

theorem eq_of_and_FFFF {w p : Word} (h : (w &&& 0xFFFF).toNat = p.toNat) : p = w := by
  rw [and_FFFF] at h
  exact (BitVec.eq_of_toNat_eq h).symm

/-- A row gives back the word it covers: its instruction is well-formed and has that word as its opcode (R85). -/
def DecodeRow.Inverts (r : DecodeRow) : Prop :=
  ∀ w, (w &&& r.mask).toNat = r.pattern.toNat → encode (r.build w) = w ∧ (r.build w).wellFormed = true

theorem rowsControlSkip_invert : ∀ r ∈ rowsControlSkip, r.Inverts := by
  simp only [rowsControlSkip, List.forall_mem_cons, List.not_mem_nil, false_imp_iff, implies_true, and_true,
    DecodeRow.Inverts]
  exact ⟨fun w h => ⟨eq_of_and_FFFF h, rfl⟩, fun w h => ⟨eq_of_and_FFFF h, rfl⟩,
    fun w h => ⟨encodeNnn_fields (by decide) h, fitsAddr_fieldAddr w⟩,
    fun w h => ⟨encodeNnn_fields (by decide) h, fitsAddr_fieldAddr w⟩,
    fun w h => ⟨encodeXkk_fields (by decide) h, rfl⟩, fun w h => ⟨encodeXkk_fields (by decide) h, rfl⟩,
    fun w h => ⟨encodeXy_fields (by decide) (by decide) h, rfl⟩⟩

theorem rowsAlu_invert : ∀ r ∈ rowsAlu, r.Inverts := by
  simp only [rowsAlu, List.forall_mem_cons, List.not_mem_nil, false_imp_iff, implies_true, and_true, DecodeRow.Inverts]
  refine ⟨fun w h => ⟨encodeXkk_fields (by decide) h, rfl⟩, fun w h => ⟨encodeXkk_fields (by decide) h, rfl⟩,
    ?_, ?_, ?_, ?_, ?_, ?_, ?_, ?_, ?_⟩
  all_goals exact fun w h => ⟨encodeXy_fields (by decide) (by decide) h, rfl⟩

theorem rowsIndexDisplayKey_invert : ∀ r ∈ rowsIndexDisplayKey, r.Inverts := by
  simp only [rowsIndexDisplayKey, List.forall_mem_cons, List.not_mem_nil, false_imp_iff, implies_true, and_true,
    DecodeRow.Inverts]
  exact ⟨fun w h => ⟨encodeXy_fields (by decide) (by decide) h, rfl⟩,
    fun w h => ⟨encodeNnn_fields (by decide) h, fitsAddr_fieldAddr w⟩,
    fun w h => ⟨encodeNnn_fields (by decide) h, fitsAddr_fieldAddr w⟩,
    fun w h => ⟨encodeXkk_fields (by decide) h, rfl⟩,
    fun w h => ⟨encodeXyn_fields (by decide) h, fitsCount_fieldN w⟩,
    fun w h => ⟨encodeX_fields (by decide) (by decide) h, rfl⟩,
    fun w h => ⟨encodeX_fields (by decide) (by decide) h, rfl⟩⟩

theorem rowsTimerMemory_invert : ∀ r ∈ rowsTimerMemory, r.Inverts := by
  simp only [rowsTimerMemory, List.forall_mem_cons, List.not_mem_nil, false_imp_iff, implies_true, and_true,
    DecodeRow.Inverts]
  refine ⟨?_, ?_, ?_, ?_, ?_, ?_, ?_, ?_, ?_⟩
  all_goals exact fun w h => ⟨encodeX_fields (by decide) (by decide) h, rfl⟩

theorem decodeTable_inverts : ∀ r ∈ decodeTable, r.Inverts := by
  simp only [decodeTable, List.forall_mem_append]
  exact ⟨⟨⟨rowsControlSkip_invert, rowsAlu_invert⟩, rowsIndexDisplayKey_invert⟩, rowsTimerMemory_invert⟩

/-- What decodes was covered by a row of the table, which built it (R99). -/
theorem exists_row_of_decodeWord {w : Word} {i : Instr} (h : decodeWord w = some i) :
    ∃ r ∈ decodeTable, r.covers w = true ∧ r.build w = i := by
  obtain ⟨r, hf, hb⟩ := Option.map_eq_some_iff.1 h
  exact ⟨r, List.mem_of_find?_eq_some hf, by simpa using List.find?_some hf, hb⟩

/-- Settles O3: the row that covers the word puts back every bit of it. -/
theorem encodeOfDecodeIsTheWord : Obligations.EncodeOfDecodeIsTheWord := by
  intro w i h
  obtain ⟨r, hr, hc, rfl⟩ := exists_row_of_decodeWord h
  exact decodeTable_inverts r hr w ((covers_iff r w).1 hc)

/-- A word decodes to an instruction exactly if it is the opcode of that instruction, well-formed. -/
theorem decodeWord_eq_some_iff (w : Word) (i : Instr) :
    decodeWord w = some i ↔ encode i = w ∧ i.wellFormed = true :=
  ⟨encodeOfDecodeIsTheWord w i, fun ⟨he, hwf⟩ => he ▸ decodeWord_encode hwf⟩

/-- Settles O1: ten words, decoded. -/
theorem sampleOpcodesDecodeAsTheMapSays : Obligations.SampleOpcodesDecodeAsTheMapSays := by
  unfold Obligations.SampleOpcodesDecodeAsTheMapSays
  decide

end Sys2Proof

namespace Sys2Proof

open Machine

/-! PROOFS. The decoder against the pattern column of the opcode map (30_encoding.md R82, R86). -/

/-- The word of four nibbles. -/
def wordOfNibbles (op x y n : Fin 16) : Word :=
  BitVec.ofNat 16 (op.val * 0x1000 + x.val * 0x100 + y.val * 0x10 + n.val)

theorem wordOfNibbles_toNat (op x y n : Fin 16) :
    (wordOfNibbles op x y n).toNat = op.val * 4096 + x.val * 256 + y.val * 16 + n.val := by
  rw [wordOfNibbles, BitVec.toNat_ofNat]
  omega

section Formats

variable {op x y n : Fin 16} {k : Nat}

/-! ### Each format's encoding of nibbles is the word of those nibbles -/

theorem encodeNnn_nibbles (hop : op.val = k) :
    encodeNnn k (BitVec.ofNat 16 (x.val * 256 + y.val * 16 + n.val)) = wordOfNibbles op x y n :=
  congrArg (BitVec.ofNat 16) (by rw [BitVec.toNat_ofNat]; omega)

theorem encodeXkk_nibbles (hop : op.val = k) :
    encodeXkk k x (BitVec.ofNat 8 (y.val * 16 + n.val)) = wordOfNibbles op x y n :=
  congrArg (BitVec.ofNat 16) (by rw [BitVec.toNat_ofNat]; omega)

theorem encodeXyn_nibbles {low : Nat} (hop : op.val = k) (hn : n.val = low) :
    encodeXyn k x y low = wordOfNibbles op x y n :=
  congrArg (BitVec.ofNat 16) (by omega)

theorem encodeX_nibbles {minor : Nat} (hop : op.val = k) (hm : y.val * 16 + n.val = minor) :
    encodeX k x minor = wordOfNibbles op x y n :=
  congrArg (BitVec.ofNat 16) (by omega)

theorem fitsAddr_nibbles : fitsAddr (BitVec.ofNat 16 (x.val * 256 + y.val * 16 + n.val)) = true := by
  simp only [fitsAddr, BitVec.lt_def, BitVec.ofNat_eq_ofNat, BitVec.toNat_ofNat, decide_eq_true_eq]
  omega

/-! ### An encoding that is a word of nibbles has those nibbles as its fields -/

theorem nibbles_of_encodeNnn {addr : Word} (hk : k < 16) (ha : fitsAddr addr = true)
    (h : encodeNnn k addr = wordOfNibbles op x y n) :
    op.val = k ∧ addr = BitVec.ofNat 16 (x.val * 256 + y.val * 16 + n.val) := by
  obtain ⟨he, hlt⟩ := encodeNnn_toNat hk ha
  rw [h, wordOfNibbles_toNat] at he
  have hop : op.val = k := by omega
  refine ⟨hop, BitVec.eq_of_toNat_eq ?_⟩
  rw [BitVec.toNat_ofNat]
  omega

theorem nibbles_of_encodeXkk {x' : Reg} {kk : Byte} (hk : k < 16) (h : encodeXkk k x' kk = wordOfNibbles op x y n) :
    op.val = k ∧ x' = x ∧ kk = BitVec.ofNat 8 (y.val * 16 + n.val) := by
  have he := encodeXkk_toNat hk x' kk
  rw [h, wordOfNibbles_toNat] at he
  have hop : op.val = k := by omega
  refine ⟨hop, Fin.ext (by omega), BitVec.eq_of_toNat_eq ?_⟩
  rw [BitVec.toNat_ofNat]
  omega

theorem nibbles_of_encodeXyn {x' y' : Reg} {low : Nat} (hk : k < 16) (hlow : low < 16)
    (h : encodeXyn k x' y' low = wordOfNibbles op x y n) : op.val = k ∧ x' = x ∧ y' = y ∧ low = n.val := by
  have he := encodeXyn_toNat hk hlow x' y'
  rw [h, wordOfNibbles_toNat] at he
  have hop : op.val = k := by omega
  exact ⟨hop, Fin.ext (by omega), Fin.ext (by omega), by omega⟩

theorem nibbles_of_encodeX {x' : Reg} {minor : Nat} (hk : k < 16) (hm : minor < 256)
    (h : encodeX k x' minor = wordOfNibbles op x y n) :
    op.val = k ∧ x' = x ∧ y.val = minor / 16 ∧ n.val = minor % 16 := by
  have he := encodeX_toNat hk hm x'
  rw [h, wordOfNibbles_toNat] at he
  have hop : op.val = k := by omega
  exact ⟨hop, Fin.ext (by omega), by omega, by omega⟩

end Formats

/-! ### The two readings agree -/

/-- What the patterns make of a word is well-formed and has that word as its opcode. -/
theorem encode_of_patternInstr {op x y n : Fin 16} {i : Instr} (h : patternInstr op x y n = some i) :
    encode i = wordOfNibbles op x y n ∧ i.wellFormed = true := by
  unfold patternInstr at h
  dsimp only at h
  split at h
  case h_1 | h_2 =>
    rename_i hop hy hn
    split at h <;> cases h
    next hx =>
      subst hx
      exact ⟨by rw [wordOfNibbles, hop, hy, hn]; rfl, rfl⟩
  case h_35 => cases h
  all_goals cases h
  case h_3 | h_4 | h_20 | h_21 => exact ⟨encodeNnn_nibbles ‹_›, fitsAddr_nibbles⟩
  case h_5 | h_6 | h_8 | h_9 | h_22 => exact ⟨encodeXkk_nibbles ‹_›, rfl⟩
  case h_23 => exact ⟨encodeXyn_nibbles ‹_› rfl, decide_eq_true n.isLt⟩
  case h_7 | h_10 | h_11 | h_12 | h_13 | h_14 | h_15 | h_16 | h_17 | h_18 | h_19 =>
    exact ⟨encodeXyn_nibbles ‹_› ‹_›, rfl⟩
  all_goals exact ⟨encodeX_nibbles ‹_› (by omega), rfl⟩

/-- A well-formed instruction is what the patterns make of the nibbles of its opcode. -/
theorem patternInstr_of_encode {op x y n : Fin 16} {i : Instr} (h : encode i = wordOfNibbles op x y n)
    (hwf : i.wellFormed = true) : patternInstr op x y n = some i := by
  cases i with
  | cls =>
    obtain ⟨hop, rfl, hy, hn⟩ := nibbles_of_encodeX (k := 0) (x' := 0) (minor := 0xE0) (by decide) (by decide) h
    simp [patternInstr, hop, hy, hn]
  | ret =>
    obtain ⟨hop, rfl, hy, hn⟩ := nibbles_of_encodeX (k := 0) (x' := 0) (minor := 0xEE) (by decide) (by decide) h
    simp [patternInstr, hop, hy, hn]
  | jp _ | call _ | ldI _ | jpV0 _ =>
    obtain ⟨hop, rfl⟩ := nibbles_of_encodeNnn (by decide) hwf h
    simp [patternInstr, hop]
  | seImm _ _ | sneImm _ _ | ldImm _ _ | addImm _ _ | rnd _ _ =>
    obtain ⟨hop, rfl, rfl⟩ := nibbles_of_encodeXkk (by decide) h
    simp [patternInstr, hop]
  | drw _ _ _ =>
    obtain ⟨hop, rfl, rfl, rfl⟩ := nibbles_of_encodeXyn (by decide) (of_decide_eq_true hwf) h
    simp [patternInstr, hop]
  | seReg _ _ | ldReg _ _ | orReg _ _ | andReg _ _ | xorReg _ _ | addReg _ _ | sub _ _ | shr _ _ | subn _ _ | shl _ _
  | sneReg _ _ =>
    obtain ⟨hop, rfl, rfl, hn⟩ := nibbles_of_encodeXyn (by decide) (by decide) h
    simp [patternInstr, hop, ← hn]
  | skp _ | sknp _ | ldVxDt _ | ldVxK _ | ldDtVx _ | ldStVx _ | addI _ | ldF _ | ldB _ | ldMemVx _ | ldVxMem _ =>
    obtain ⟨hop, rfl, hy, hn⟩ := nibbles_of_encodeX (by decide) (by decide) h
    simp [patternInstr, hop, hy, hn]

/-- Settles O4: both readings of a word answer exactly the well-formed instruction whose opcode it is. -/
theorem maskAndMatchAgreeWithThePatterns : Obligations.MaskAndMatchAgreeWithThePatterns := by
  intro op x y n
  refine Option.ext fun i => ?_
  rw [← wordOfNibbles, decodeWord_eq_some_iff]
  exact ⟨fun ⟨he, hwf⟩ => patternInstr_of_encode he hwf, encode_of_patternInstr⟩

end Sys2Proof

namespace Sys2Proof.Machine

/-! PROOFS. What executing an instruction can answer (60_exceptions.md R181, R186) and what it writes beside the general
registers (10_state.md section 2), said once for all instructions; the tick's rules follow (40_cycle.md section 2). -/

/-! ### What the control, skip and wait instructions do, as named writes -/

/-- A skip is a write of `PC`, whether or not its condition holds. -/
theorem skipIf_eq_writePc (c : Bool) (s : State) : skipIf c s = s.writePc (skipIf c s).pc := by cases c <;> rfl

theorem exec_ret (s : State) : exec .ret s = withByte s s.stackHigh fun h => withByte s s.stackLow fun l =>
    .next ((s.writePc (wordOfBytes h l)).writeSp (poppedSp s.sp)) := rfl

theorem exec_jp (addr : Word) (s : State) : exec (.jp addr) s = .next (s.writePc addr) := rfl

theorem exec_jpV0 (addr : Word) (s : State) : exec (.jpV0 addr) s = .next (s.writePc (s.offsetTarget addr)) := rfl

/-- The state in which `2nnn` stores the return address: `SP` has moved, nothing is stored yet (R126). -/
def State.pushing (s : State) : State := s.writeSp (pushedSp s.sp)

theorem exec_call (addr : Word) (s : State) : exec (.call addr) s =
    andThen (storeBytes s.pushing.pushStores s.pushing) fun t => .next (t.writePc addr) := rfl

theorem exec_ldB (x : Reg) (s : State) : exec (.ldB x) s = storeBytes (s.digitStores (s.readV x)) s := rfl

theorem exec_ldMemVx (x : Reg) (s : State) : exec (.ldMemVx x) s = storeBytes (s.blockStores x) s := rfl

theorem exec_ldVxMem (x : Reg) (s : State) : exec (.ldVxMem x) s = loadRegs (regsUpTo x) s := rfl

theorem exec_drw (x y : Reg) (n : Nat) (s : State) :
    exec (.drw x y n) s = drawRows (s.readV x) (s.readV y) n 0 false s := rfl

/-! ### Sequencing -/

theorem withByte_ok {s : State} {a : Nat} {b : Byte} (h : s.busRead a = .ok b) (k : Byte → Outcome) :
    withByte s a k = k b := by
  rw [withByte, h]

theorem withByte_error {s : State} {a : Nat} {e : AccessError} (h : s.busRead a = .error e) (k : Byte → Outcome) :
    withByte s a k = .fault (e.toFault s) := by
  rw [withByte, h]
  rfl

theorem andThen_next_inv {o : Outcome} {k : State → Outcome} {t : State} (h : andThen o k = .next t) :
    ∃ u, o = .next u ∧ k u = .next t := by
  cases o with
  | next u => exact ⟨u, rfl, h⟩
  | fault f => cases h
  | refused r => cases h

/-- Everything `00EE` can answer (R124): both bytes are popped, or one read fails and nothing is changed. -/
theorem exec_ret_cases (s : State) :
    (∃ h l, exec .ret s = .next ((s.writePc (wordOfBytes h l)).writeSp (poppedSp s.sp))) ∨
    ∃ a e, s.busRead a = .error e ∧ exec .ret s = .fault (e.toFault s) := by
  rw [exec_ret]
  cases hh : s.busRead s.stackHigh with
  | error e => exact .inr ⟨_, e, hh, withByte_error hh _⟩
  | ok h =>
    rw [withByte_ok hh]
    cases hl : s.busRead s.stackLow with
    | error e => exact .inr ⟨_, e, hl, withByte_error hl _⟩
    | ok l => exact .inl ⟨h, l, withByte_ok hl _⟩

/-- A call that completes stored the return address with `SP` moved, and then jumped (R126). -/
theorem exec_call_next {addr : Word} {s t : State} (h : exec (.call addr) s = .next t) :
    ∃ u, storeBytes s.pushing.pushStores s.pushing = .next u ∧ t = u.writePc addr := by
  rw [exec_call] at h
  obtain ⟨u, hu, ht⟩ := andThen_next_inv h
  exact ⟨u, hu, (Host.Outcome.next.inj ht).symm⟩

/-! ### Access errors -/

theorem isAccess_of_busRead_error {s : State} {a : Nat} {e : AccessError} (h : s.busRead a = .error e) (t : State) :
    (e.toFault t).isAccess .read := by
  rcases busRead_cases s a with ⟨dev, l, -, -, -, hb⟩ | ⟨dev, l, -, -, -, hb⟩ | ⟨-, -, hb⟩ <;> rw [hb] at h <;> cases h
  · exact .inr ⟨dev, l, t, rfl⟩
  · exact .inl ⟨a, t, rfl⟩

theorem isAccess_of_busWrite_error {s : State} {a : Nat} {b : Byte} {e : AccessError} (h : s.busWrite a b = .error e)
    (t : State) : (e.toFault t).isAccess .write := by
  rcases busWrite_cases s a b with ⟨l, -, -, -, hb⟩ | ⟨l, -, -, -, hb⟩ | ⟨dev, l, -, -, -, hb⟩ | ⟨-, -, hb⟩ <;>
    rw [hb] at h <;> cases h
  · exact .inr ⟨dev, l, t, rfl⟩
  · exact .inl ⟨a, t, rfl⟩

/-- A failed access ends with code 1 or 2 (R180). -/
theorem toFault_code (e : AccessError) (s : State) : (e.toFault s).code = 1 ∨ (e.toFault s).code = 2 := by
  cases e with
  | unmapped dir a => exact .inl rfl
  | outOfRange dev a => exact .inr rfl

/-! ### What every instruction answers -/

/-- The registries and the memory's capacity are as they were, and the memory is as canonical as it was. -/
structure KeepsDevices (s t : State) : Prop where
  readable : t.readable = s.readable
  writable : t.writable = s.writable
  size : t.mem.size = s.mem.size
  wf : s.mem.wf → t.mem.wf

theorem keepsDevices_of_devices {s t : State} (h : t = { s with mem := t.mem, screen := t.screen })
    (hsize : t.mem.size = s.mem.size) (hwf : s.mem.wf → t.mem.wf) :
    KeepsDevices s t ∧ t.pc = s.pc ∧ t.wait = s.wait := by
  have hk : t.readable = s.readable ∧ t.writable = s.writable ∧ t.pc = s.pc ∧ t.wait = s.wait := by
    rw [h]
    exact ⟨rfl, rfl, rfl, rfl⟩
  obtain ⟨hr, hw, hrun⟩ := hk
  exact ⟨⟨hr, hw, hsize, hwf⟩, hrun⟩

theorem keepsDevices_of_registers {s t : State} (h : t = { s with v := t.v }) :
    KeepsDevices s t ∧ t.pc = s.pc ∧ t.wait = s.wait := by
  rw [h]
  exact ⟨⟨rfl, rfl, rfl, id⟩, rfl, rfl⟩

/-- The instructions that read operands through the bus (R181). -/
def ReadsBus (i : Instr) : Prop := i = .ret ∨ (∃ x y n, i = .drw x y n) ∨ ∃ x, i = .ldVxMem x

/-- The instructions that write through the bus (R181). -/
def WritesBus (i : Instr) : Prop := (∃ addr, i = .call addr) ∨ (∃ x, i = .ldB x) ∨ ∃ x, i = .ldMemVx x

/-- What an instruction can answer: a next state, or the error of one access in the direction its kind allows, after
which `PC` and the run state are as they were before the instruction. -/
inductive ExecAnswer (i : Instr) (s : State) : Prop
  | next (t : State) (answer : exec i s = .next t) (keeps : KeepsDevices s t)
  | failed (t : State) (e : AccessError) (answer : exec i s = .fault (e.toFault t)) (keeps : KeepsDevices s t)
      (pc : t.pc = s.pc) (wait : t.wait = s.wait)
      (access : (e.toFault t).isAccess .read ∧ ReadsBus i ∨ (e.toFault t).isAccess .write ∧ WritesBus i)

theorem execAnswer_of_storeBytes {i : Instr} {s : State} {stores : List (Nat × Byte)} (hi : WritesBus i)
    (h : exec i s = storeBytes stores s) : ExecAnswer i s := by
  obtain ⟨t, hans, hrest, hsize, hwf⟩ := storeBytes_leaves stores s
  obtain ⟨hk, hpc, hwait⟩ := keepsDevices_of_devices hrest hsize hwf
  rcases hans with hnext | ⟨a, b, e, hfault, he⟩
  · exact .next t (h.trans hnext) hk
  · exact .failed t e (h.trans hfault) hk hpc hwait
      (.inr ⟨isAccess_of_busWrite_error he t, hi⟩)

theorem execAnswer_call (addr : Word) (s : State) : ExecAnswer (.call addr) s := by
  obtain ⟨t, hans, hrest, hsize, hwf⟩ := storeBytes_leaves s.pushing.pushStores s.pushing
  obtain ⟨⟨hr, hw, -, -⟩, hpc, hwait⟩ := keepsDevices_of_devices hrest hsize hwf
  rcases hans with hnext | ⟨a, b, e, hfault, he⟩
  · exact .next (t.writePc addr) (by rw [exec_call, hnext]; rfl) ⟨hr, hw, hsize, hwf⟩
  · exact .failed t e (by rw [exec_call, hfault]; rfl) ⟨hr, hw, hsize, hwf⟩ hpc hwait
      (.inr ⟨isAccess_of_busWrite_error he t, .inl ⟨addr, rfl⟩⟩)

theorem execAnswer_ret (s : State) : ExecAnswer .ret s := by
  rcases exec_ret_cases s with ⟨h, l, hnext⟩ | ⟨a, e, he, hfault⟩
  · exact .next _ hnext ⟨rfl, rfl, rfl, id⟩
  · exact .failed s e hfault ⟨rfl, rfl, rfl, id⟩ rfl rfl (.inl ⟨isAccess_of_busRead_error he s, .inl rfl⟩)

theorem execAnswer_drw (x y : Reg) (n : Nat) (s : State) : ExecAnswer (.drw x y n) s := by
  rcases drawRows_cases (s.readV x) (s.readV y) n 0 false s with ⟨p, f, hnext⟩ | ⟨p, a, e, hfault, he⟩
  · exact .next _ ((exec_drw ..).trans hnext) ⟨rfl, rfl, rfl, id⟩
  · exact .failed _ e ((exec_drw ..).trans hfault) ⟨rfl, rfl, rfl, id⟩ rfl rfl
      (.inl ⟨isAccess_of_busRead_error he _, .inr (.inl ⟨x, y, n, rfl⟩)⟩)

theorem execAnswer_ldVxMem (x : Reg) (s : State) : ExecAnswer (.ldVxMem x) s := by
  obtain ⟨t, hans, hrest⟩ := loadRegs_leaves (regsUpTo x) s
  obtain ⟨hk, hpc, hwait⟩ := keepsDevices_of_registers hrest
  rcases hans with hnext | ⟨a, e, hfault, he⟩
  · exact .next t hnext hk
  · exact .failed t e hfault hk hpc hwait
      (.inl ⟨isAccess_of_busRead_error he t, .inr (.inr ⟨x, rfl⟩)⟩)

/-- Everything an instruction can answer (R181, R186): the six that access the bus may fail, every other completes. -/
theorem execAnswer (i : Instr) (s : State) : ExecAnswer i s := by
  cases i with
  | ret => exact execAnswer_ret s
  | call addr => exact execAnswer_call addr s
  | drw x y n => exact execAnswer_drw x y n s
  | ldVxMem x => exact execAnswer_ldVxMem x s
  | ldB x => exact execAnswer_of_storeBytes (.inr (.inl ⟨x, rfl⟩)) (exec_ldB x s)
  | ldMemVx x => exact execAnswer_of_storeBytes (.inr (.inr ⟨x, rfl⟩)) (exec_ldMemVx x s)
  | seImm _ _ | sneImm _ _ | seReg _ _ | sneReg _ _ | skp _ | sknp _ =>
    exact .next _ (congrArg Host.Outcome.next (skipIf_eq_writePc _ s)) ⟨rfl, rfl, rfl, id⟩
  | cls | jp _ | jpV0 _ | ldImm _ _ | addImm _ _ | ldReg _ _ | orReg _ _ | andReg _ _ | xorReg _ _ | addReg _ _
  | sub _ _ | subn _ _ | shr _ _ | shl _ _ | rnd _ _ | ldI _ | addI _ | ldF _ | ldVxDt _ | ldVxK _ | ldDtVx _
  | ldStVx _ => exact .next _ rfl ⟨rfl, rfl, rfl, id⟩

/-- Settles O11: the error of each failing instruction is that of its one kind of access. -/
theorem onlyTheListedInstructionsCanFail : Obligations.OnlyTheListedInstructionsCanFail := by
  intro i s
  cases execAnswer i s with
  | next t answer => exact .inl ⟨t, answer⟩
  | failed t e answer keeps pc wait access => exact .inr ⟨_, answer, access⟩

/-! ### Which instructions write what -/

theorem exec_ret_next {s t : State} (h : exec .ret s = .next t) :
    ∃ b l, t = (s.writePc (wordOfBytes b l)).writeSp (poppedSp s.sp) := by
  rcases exec_ret_cases s with ⟨b, l, hnext⟩ | ⟨a, e, -, hfault⟩
  · exact ⟨b, l, Host.Outcome.next.inj (h.symm.trans hnext)⟩
  · rw [hfault] at h
    cases h

theorem exec_drw_next {x y : Reg} {n : Nat} {s t : State} (h : exec (.drw x y n) s = .next t) :
    ∃ p f, t = (s.writeScreen p).writeFlag f := by
  rcases drawRows_cases (s.readV x) (s.readV y) n 0 false s with ⟨p, f, hnext⟩ | ⟨p, a, e, hfault, -⟩
  · exact ⟨p, f, Host.Outcome.next.inj (h.symm.trans hnext)⟩
  · rw [exec_drw, hfault] at h
    cases h

theorem storeBytes_next_rest {stores : List (Nat × Byte)} {s t : State} (h : storeBytes stores s = .next t) :
    t = { s with mem := t.mem, screen := t.screen } ∧ t.mem.size = s.mem.size := by
  obtain ⟨u, hans, hrest, hsize, -⟩ := storeBytes_leaves stores s
  rcases hans with hnext | ⟨a, b, e, hfault, -⟩
  · obtain rfl := Host.Outcome.next.inj (h.symm.trans hnext)
    exact ⟨hrest, hsize⟩
  · rw [hfault] at h
    cases h

theorem loadRegs_next_rest {regs : List Reg} {s t : State} (h : loadRegs regs s = .next t) :
    t = { s with v := t.v } := by
  obtain ⟨u, hans, hrest⟩ := loadRegs_leaves regs s
  rcases hans with hnext | ⟨a, e, hfault, -⟩
  · obtain rfl := Host.Outcome.next.inj (h.symm.trans hnext)
    exact hrest
  · rw [hfault] at h
    cases h

/-- Settles O20: after each instruction the written part is the one its row of the table names; the six that access the
bus leave what their sequences of accesses leave. -/
theorem specialStateIsWrittenOnlyByItsInstructions : Obligations.SpecialStateIsWrittenOnlyByItsInstructions := by
  intro i s t h
  cases i with
  | ret =>
    obtain ⟨b, l, rfl⟩ := exec_ret_next h
    simp
  | call addr =>
    obtain ⟨u, hu, rfl⟩ := exec_call_next h
    obtain ⟨hrest, hsize⟩ := storeBytes_next_rest hu
    rw [hrest]
    simp [State.pushing, hsize]
  | drw x y n =>
    obtain ⟨p, f, rfl⟩ := exec_drw_next h
    simp [State.writeFlag]
  | ldVxMem x =>
    rw [loadRegs_next_rest h]
    simp
  | ldB x | ldMemVx x =>
    obtain ⟨hrest, hsize⟩ := storeBytes_next_rest h
    rw [hrest]
    simp [hsize]
  | seImm _ _ | sneImm _ _ | seReg _ _ | sneReg _ _ | skp _ | sknp _ =>
    cases h
    rw [skipIf_eq_writePc]
    simp
  | addReg _ _ | sub _ _ | subn _ _ | shr _ _ | shl _ _ =>
    cases h
    simp [resultThenFlag, State.writeFlag]
  | cls | jp _ | jpV0 _ | ldImm _ _ | addImm _ _ | ldReg _ _ | orReg _ _ | andReg _ _ | xorReg _ _ | rnd _ _ | ldI _
  | addI _ | ldF _ | ldVxDt _ | ldVxK _ | ldDtVx _ | ldStVx _ =>
    cases h
    simp

end Sys2Proof.Machine

namespace Sys2Proof.Machine

/-! PROOFS. The tick (40_cycle.md section 2), and what every tick keeps (10_state.md, 40_cycle.md section 3). -/

/-! ### The tick's cases -/

/-- The word a fetch forms from two bytes (R49, R96). -/
theorem fetchWord_of_bytes {s : State} {hi lo : Byte} {w : Word} (hhi : s.busRead s.pc.toNat = .ok hi)
    (hlo : s.busRead (s.pc.toNat + 1) = .ok lo) (hw : w.toNat = hi.toNat * 256 + lo.toNat) : s.fetchWord = .ok w := by
  have hword : wordOfBytes hi lo = w := BitVec.eq_of_toNat_eq (by rw [wordOfBytes_toNat, hw])
  simp only [State.fetchWord, hhi, hlo, hword]

theorem step_running {s : State} (h : s.wait.active = false) : step s = tickRunning s := by
  rw [step, tickOnce, h]

theorem step_of_fetch {s : State} {w : Word} (h : s.wait.active = false) (hf : s.fetchWord = .ok w) :
    step s = runWord w s := by
  rw [step_running h, tickRunning, hf]

theorem step_of_fetch_error {s : State} {e : AccessError} (h : s.wait.active = false) (hf : s.fetchWord = .error e) :
    step s = .fault (e.toFault s) := by
  rw [step_running h, tickRunning, hf]
  rfl

theorem step_halted {s : State} (h : s.halted) : step s = .next s := by
  rw [step, tickOnce, show s.wait.active = true from h]

/-- Settles O6: the fetched word decodes, so the tick is its instruction on the advanced state. -/
theorem stepRunsTheDecodedInstruction : Obligations.StepRunsTheDecodedInstruction := by
  intro s hi lo w i hrun hhi hlo hw hd
  rw [step_of_fetch hrun (fetchWord_of_bytes hhi hlo hw), runWord, hd]
  rfl

/-- Settles O7: the Halted branch of the tick. -/
theorem haltedTickDoesNothing : Obligations.HaltedTickDoesNothing := fun _ h => step_halted h

/-- Settles O8: the fetch ends at whichever read fails first. -/
theorem failedFetchLeavesTheState : Obligations.FailedFetchLeavesTheState := by
  intro s e hrun
  refine ⟨fun h => step_of_fetch_error hrun ?_, fun hi hhi hlo => step_of_fetch_error hrun ?_⟩
  · rw [State.fetchWord, h]
  · simp only [State.fetchWord, hhi, hlo]

/-- Settles O9: no row covers the word, so it does not decode. -/
theorem unknownWordRaisesUnknownOpcode : Obligations.UnknownWordRaisesUnknownOpcode := by
  intro s hi lo w hrun hhi hlo hw hrows
  have hd : decodeWord w = none := by
    simpa [decodeWord, DecodeRow.covers] using hrows
  rw [step_of_fetch hrun (fetchWord_of_bytes hhi hlo hw), runWord, hd]
  rfl

/-! ### Errors of a tick -/

/-- Settles O10: a failed fetch and a failed instruction end with an access error, an unknown word with code 5. -/
theorem tickAnswersOkOrOneOfThreeErrors : Obligations.TickAnswersOkOrOneOfThreeErrors := by
  intro s
  rcases step_cases s with ⟨-, h⟩ | ⟨-, e, hf, h⟩ | ⟨-, w, -, -, h⟩ | ⟨-, w, i, -, -, h⟩
  · exact .inl ⟨s, h⟩
  · exact .inr ⟨_, h, (toFault_code e s).imp_right .inl⟩
  · exact .inr ⟨_, h, .inr (.inr rfl)⟩
  · cases execAnswer i s.advance with
    | next t answer => exact .inl ⟨t, h.trans answer⟩
    | failed t e answer => exact .inr ⟨_, h.trans answer, (toFault_code e t).imp_right .inl⟩

/-- Settles O12: a failed fetch raises on the state itself, and every later error leaves `PC` and the run state of the
advanced state. -/
theorem errorLeavesPcAdvancedAfterTheFetch : Obligations.ErrorLeavesPcAdvancedAfterTheFetch := by
  intro s f hf
  rcases step_cases s with ⟨-, h⟩ | ⟨-, e, hfetch, h⟩ | ⟨-, w, hfetch, -, h⟩ | ⟨-, w, i, hfetch, -, h⟩
  · rw [h] at hf
    cases hf
  · obtain rfl := Host.Outcome.fault.inj (h.symm.trans hf)
    rw [toFault_after]
    exact ⟨rfl, .inr ⟨⟨e, hfetch⟩, rfl⟩⟩
  · obtain rfl := Host.Outcome.fault.inj (h.symm.trans hf)
    exact ⟨rfl, .inl ⟨w, hfetch, rfl⟩⟩
  · rw [h] at hf
    cases execAnswer i s.advance with
    | next t answer =>
      rw [answer] at hf
      cases hf
    | failed t e answer keeps pc wait =>
      obtain rfl := Host.Outcome.fault.inj (answer.symm.trans hf)
      rw [toFault_after]
      exact ⟨wait, .inl ⟨w, hfetch, pc⟩⟩

/-! ### The invariant -/

theorem valid_of_keepsDevices {s t : State} (hs : s.Valid) (h : KeepsDevices s t) :
    t.Valid ∧ t.mem.size = s.mem.size := by
  obtain ⟨hwf, hmin, hmax, hread, hwrite⟩ := hs
  exact ⟨⟨h.wf hwf, h.size ▸ hmin, h.size ▸ hmax, h.readable ▸ hread, h.writable ▸ hwrite⟩, h.size⟩

/-- Whatever a tick answers, it keeps the registries, the capacity and the memory's canonical form. -/
theorem step_keepsDevices (s : State) :
    (∃ t, step s = .next t ∧ KeepsDevices s t) ∨ ∃ f, step s = .fault f ∧ KeepsDevices s f.after := by
  rcases step_cases s with ⟨-, h⟩ | ⟨-, e, -, h⟩ | ⟨-, w, -, -, h⟩ | ⟨-, w, i, -, -, h⟩
  · exact .inl ⟨s, h, rfl, rfl, rfl, id⟩
  · exact .inr ⟨_, h, by rw [toFault_after]; exact ⟨rfl, rfl, rfl, id⟩⟩
  · exact .inr ⟨_, h, rfl, rfl, rfl, id⟩
  · cases execAnswer i s.advance with
    | next t answer keeps => exact .inl ⟨t, h.trans answer, keeps.readable, keeps.writable, keeps.size, keeps.wf⟩
    | failed t e answer keeps =>
      exact .inr ⟨_, h.trans answer, by
        rw [toFault_after]
        exact ⟨keeps.readable, keeps.writable, keeps.size, keeps.wf⟩⟩

/-- Settles O13: what a tick keeps is all the invariant speaks of. -/
theorem everyTickKeepsTheStateValid : Obligations.EveryTickKeepsTheStateValid := by
  intro s hs
  rcases step_keepsDevices s with ⟨t, h, hk⟩ | ⟨f, h, hk⟩ <;> rw [h]
  · exact ⟨fun u hu => Host.Outcome.next.inj hu ▸ valid_of_keepsDevices hs hk, fun f hf => (nomatch hf)⟩
  · exact ⟨fun u hu => (nomatch hu), fun g hg => Host.Outcome.fault.inj hg ▸ valid_of_keepsDevices hs hk⟩

/-- Settles O14: nothing is listed in memory, and each registry has one entry. -/
theorem resetStateIsValid : Obligations.ResetStateIsValid := by
  unfold Obligations.ResetStateIsValid
  decide

/-! ### `PC` and `I` stay in their ranges -/

theorem fitsAddr_lt {addr : Word} (h : fitsAddr addr = true) : addr.toNat < 4096 :=
  (encodeNnn_toNat (op := 0) (by decide) h).2

theorem pcPlusTwo_toNat {s : State} (hmax : s.mem.size ≤ 65536) (hmin : 0 < s.mem.size) :
    s.pcPlusTwo.pc.toNat = (s.pc.toNat + 2) % s.mem.size := by
  have hlt := Nat.mod_lt (s.pc.toNat + 2) hmin
  rw [State.pcPlusTwo, writePc_pc, BitVec.toNat_ofNat, State.addrSpace, Nat.mod_eq_of_lt (a := _ % _) (by omega)]

theorem skipIf_pc_toNat {s : State} (hmax : s.mem.size ≤ 65536) (hmin : 0 < s.mem.size) (c : Bool) :
    (skipIf c s).pc.toNat = if c then (s.pc.toNat + 2) % s.mem.size else s.pc.toNat := by
  cases c
  · rfl
  · exact pcPlusTwo_toNat hmax hmin

theorem offsetTarget_toNat {s : State} (hmax : s.mem.size ≤ 65536) (hmin : 0 < s.mem.size) (addr : Word) :
    (s.offsetTarget addr).toNat = (addr.toNat + (s.readV 0).toNat) % s.mem.size := by
  have hlt := Nat.mod_lt (addr.toNat + (s.readV 0).toNat) hmin
  rw [State.offsetTarget, BitVec.toNat_ofNat, State.addrSpace, Nat.mod_eq_of_lt (a := _ % _) (by omega)]

theorem skipIf_pc_inside {s : State} (hmax : s.mem.size ≤ 65536) (hpc : s.pc.toNat < s.mem.size) (c : Bool) :
    (skipIf c s).pc.toNat < s.mem.size := by
  rw [skipIf_pc_toNat hmax (by omega)]
  split
  · exact Nat.mod_lt _ (by omega)
  · exact hpc

/-- R107, R108: every target of an instruction but a return is inside the address space. -/
theorem exec_pc_inside {i : Instr} {s t : State} (hwf : i.wellFormed = true) (hret : i ≠ .ret)
    (hmin : 4096 ≤ s.mem.size) (hmax : s.mem.size ≤ 65536) (hpc : s.pc.toNat < s.mem.size)
    (h : exec i s = .next t) : t.pc.toNat < s.mem.size := by
  obtain ⟨-, -, -, -, -, -, -, -, -, hwrites⟩ := specialStateIsWrittenOnlyByItsInstructions i s t h
  rcases hwrites with hsame | hi | ⟨addr, rfl | rfl | rfl⟩ | ⟨x, kk, rfl | rfl⟩ | ⟨x, y, rfl | rfl⟩ | ⟨x, rfl | rfl⟩
  · rw [hsame]
    exact hpc
  · exact absurd hi hret
  · cases h
    exact Nat.lt_of_lt_of_le (fitsAddr_lt hwf) hmin
  · obtain ⟨u, -, rfl⟩ := exec_call_next h
    exact Nat.lt_of_lt_of_le (fitsAddr_lt hwf) hmin
  · cases h
    rw [writePc_pc, offsetTarget_toNat hmax (by omega)]
    exact Nat.mod_lt _ (by omega)
  all_goals
    cases h
    exact skipIf_pc_inside hmax hpc _

theorem nextInstr_of_fetch {s : State} {w : Word} (h : s.wait.active = false) (hf : s.fetchWord = .ok w) :
    s.nextInstr = decodeWord w := by
  rw [State.nextInstr, h, hf]

/-- Settles O16: the advance is reduced, and so is every target but that of a return. -/
theorem pcStaysInsideTheAddressSpace : Obligations.PcStaysInsideTheAddressSpace := by
  rintro s t ⟨-, hmin, hmax, -, -⟩ hpc hret hstep
  rcases step_cases s with ⟨-, h⟩ | ⟨-, e, -, h⟩ | ⟨-, w, -, -, h⟩ | ⟨hrun, w, i, hfetch, hd, h⟩ <;> rw [h] at hstep
  · cases hstep
    exact hpc
  · cases hstep
  · cases hstep
  · have hwf := (encodeOfDecodeIsTheWord w i hd).2
    have hne : i ≠ .ret := by
      rintro rfl
      exact hret ((nextInstr_of_fetch hrun hfetch).trans hd)
    have hadvance : s.advance.pc.toNat < s.mem.size := skipIf_pc_inside hmax hpc true
    obtain ⟨-, -, -, hsize, -⟩ := specialStateIsWrittenOnlyByItsInstructions i _ t hstep
    rw [hsize]
    exact exec_pc_inside hwf hne hmin hmax hadvance hstep

/-- R24: every address an instruction writes to `I` is below 4096. -/
theorem exec_i_below {i : Instr} {s t : State} (hwf : i.wellFormed = true) (hi : s.i.toNat < 4096)
    (h : exec i s = .next t) : t.i.toNat < 4096 := by
  obtain ⟨-, -, -, -, hwrites, -⟩ := specialStateIsWrittenOnlyByItsInstructions i s t h
  rcases hwrites with hsame | ⟨addr, rfl⟩ | ⟨x, rfl | rfl⟩
  · rw [hsame]
    exact hi
  · cases h
    exact fitsAddr_lt hwf
  · cases h
    rw [writeI_i, indexSum_toNat]
    exact Nat.mod_lt _ (by decide)
  · cases h
    rw [writeI_i, glyphAddress_toNat]
    omega

/-- Settles O17: the decoder's instructions are well-formed, and the advance leaves `I`. -/
theorem addressRegisterStaysBelow4096 : Obligations.AddressRegisterStaysBelow4096 := by
  intro s t hi hstep
  rcases step_cases s with ⟨-, h⟩ | ⟨-, e, -, h⟩ | ⟨-, w, -, -, h⟩ | ⟨-, w, i, -, hd, h⟩ <;> rw [h] at hstep
  · cases hstep
    exact hi
  · cases hstep
  · cases hstep
  · exact exec_i_below (s := s.advance) (encodeOfDecodeIsTheWord w i hd).2 hi hstep

end Sys2Proof.Machine

namespace Sys2Proof.Machine

/-! PROOFS. Noninterference (10_state.md R25, R27, R37): one update of the parts most instructions never touch, and that
every instruction but those that own a part commutes with it. -/

/-! ### An update of the parts that few instructions touch -/

/-- The state with its stack pointer, sound timer and wait latch replaced by functions of what they were. -/
def State.mapHidden (fsp : Word → Word) (fst : Byte → Byte) (fwait : WaitLatch → WaitLatch) (s : State) : State :=
  { s with sp := fsp s.sp, st := fst s.st, wait := fwait s.wait }

theorem withAfter_toFault (e : AccessError) (s t : State) : (e.toFault s).withAfter t = e.toFault t := by
  cases e <;> rfl

section

variable (fsp : Word → Word) (fst : Byte → Byte) (fwait : WaitLatch → WaitLatch)

theorem onState_raise (g : State → State) (e : AccessError) (s : State) : onState g (raise e s) = raise e (g s) := by
  rw [raise, onState, withAfter_toFault, toFault_after]
  rfl

/-- The bus sees none of the hidden parts, so a write through it commutes with their update. -/
theorem busWrite_mapHidden (s : State) (a : Nat) (b : Byte) :
    (s.mapHidden fsp fst fwait).busWrite a b = (s.busWrite a b).map (·.mapHidden fsp fst fwait) := by
  have hw : (s.mapHidden fsp fst fwait).writable = s.writable := rfl
  have hm : (s.mapHidden fsp fst fwait).mem = s.mem := rfl
  have hp : (s.mapHidden fsp fst fwait).screen = s.screen := rfl
  simp only [State.busWrite, hw]
  cases route s.writable a with
  | none => rfl
  | some place =>
    obtain ⟨dev, l⟩ := place
    cases dev with
    | memory =>
      simp only [State.deviceWrite, hm]
      cases s.mem.write l b <;> rfl
    | screen =>
      simp only [State.deviceWrite, hp]
      cases s.screen.write l b <;> rfl

theorem storeBytes_mapHidden (stores : List (Nat × Byte)) (s : State) :
    storeBytes stores (s.mapHidden fsp fst fwait) = onState (·.mapHidden fsp fst fwait) (storeBytes stores s) := by
  induction stores generalizing s with
  | nil => rfl
  | cons p rest ih =>
    obtain ⟨a, b⟩ := p
    simp only [storeBytes, busWrite_mapHidden]
    cases s.busWrite a b with
    | ok t => exact ih t
    | error e => exact (onState_raise _ e s).symm

theorem withByte_mapHidden {s : State} {a : Nat} {k k' : Byte → Outcome}
    (h : ∀ b, k' b = onState (·.mapHidden fsp fst fwait) (k b)) :
    withByte (s.mapHidden fsp fst fwait) a k' = onState (·.mapHidden fsp fst fwait) (withByte s a k) := by
  have hread : (s.mapHidden fsp fst fwait).busRead a = s.busRead a := rfl
  rw [withByte, withByte, hread]
  cases s.busRead a with
  | ok b => exact h b
  | error e => exact (onState_raise _ e s).symm

theorem loadRegs_mapHidden (regs : List Reg) (s : State) :
    loadRegs regs (s.mapHidden fsp fst fwait) = onState (·.mapHidden fsp fst fwait) (loadRegs regs s) := by
  induction regs generalizing s with
  | nil => rfl
  | cons k rest ih => exact withByte_mapHidden fsp fst fwait fun b => ih (s.writeV k b)

theorem drawRows_mapHidden (cx cy : Byte) (todo b : Nat) (hit : Bool) (s : State) :
    drawRows cx cy todo b hit (s.mapHidden fsp fst fwait) =
      onState (·.mapHidden fsp fst fwait) (drawRows cx cy todo b hit s) := by
  induction todo generalizing b hit s with
  | zero => rfl
  | succ todo ih =>
    exact withByte_mapHidden fsp fst fwait fun sprite =>
      ih (b + 1) (drawByte cx (spriteRow cy b) sprite (s.screen, hit)).2
        (s.writeScreen (drawByte cx (spriteRow cy b) sprite (s.screen, hit)).1)

theorem skipIf_mapHidden (c : Bool) (s : State) :
    skipIf c (s.mapHidden fsp fst fwait) = (skipIf c s).mapHidden fsp fst fwait := by
  cases c <;> rfl

theorem andThen_mapHidden {o o' : Outcome} {k : State → Outcome} (ho : o' = onState (·.mapHidden fsp fst fwait) o)
    (hk : ∀ t, k (t.mapHidden fsp fst fwait) = onState (·.mapHidden fsp fst fwait) (k t)) :
    andThen o' k = onState (·.mapHidden fsp fst fwait) (andThen o k) := by
  subst ho
  cases o with
  | next t => exact hk t
  | fault f => rfl
  | refused r => rfl

theorem exec_call_mapHidden (addr : Word) (s : State) :
    exec (.call addr) (s.mapHidden id fst fwait) = onState (·.mapHidden id fst fwait) (exec (.call addr) s) :=
  andThen_mapHidden id fst fwait (storeBytes_mapHidden id fst fwait s.pushing.pushStores s.pushing) fun _ => rfl

theorem exec_ret_mapHidden (s : State) :
    exec .ret (s.mapHidden id fst fwait) = onState (·.mapHidden id fst fwait) (exec .ret s) :=
  withByte_mapHidden id fst fwait fun _ => withByte_mapHidden id fst fwait fun _ => rfl

/-- An instruction commutes with the update of every hidden part it does not own: `00EE` and `2nnn` own `SP`, `Fx18`
owns `ST`, `Fx0A` owns the latch. -/
theorem exec_mapHidden (i : Instr) (s : State) (hsp : i = .ret ∨ (∃ addr, i = .call addr) → fsp = id)
    (hst : (∃ x, i = .ldStVx x) → fst = id) (hwait : (∃ x, i = .ldVxK x) → fwait = id) :
    exec i (s.mapHidden fsp fst fwait) = onState (·.mapHidden fsp fst fwait) (exec i s) := by
  cases i with
  | ret =>
    obtain rfl := hsp (.inl rfl)
    exact exec_ret_mapHidden fst fwait s
  | call addr =>
    obtain rfl := hsp (.inr ⟨addr, rfl⟩)
    exact exec_call_mapHidden fst fwait addr s
  | ldStVx x =>
    obtain rfl := hst ⟨x, rfl⟩
    rfl
  | ldVxK x =>
    obtain rfl := hwait ⟨x, rfl⟩
    rfl
  | ldB x => exact storeBytes_mapHidden fsp fst fwait _ s
  | ldMemVx x => exact storeBytes_mapHidden fsp fst fwait _ s
  | ldVxMem x => exact loadRegs_mapHidden fsp fst fwait _ s
  | drw x y n => exact drawRows_mapHidden fsp fst fwait _ _ n 0 false s
  | seImm _ _ | sneImm _ _ | seReg _ _ | sneReg _ _ | skp _ | sknp _ =>
    exact congrArg Host.Outcome.next (skipIf_mapHidden fsp fst fwait _ s)
  | cls | jp _ | jpV0 _ | ldImm _ _ | addImm _ _ | ldReg _ _ | orReg _ _ | andReg _ _ | xorReg _ _ | addReg _ _
  | sub _ _ | subn _ _ | shr _ _ | shl _ _ | rnd _ _ | ldI _ | addI _ | ldF _ | ldVxDt _ | ldDtVx _ => rfl

end

/-! ### The obligations -/

/-- Settles O18: a write of `SP` is an update of the hidden parts that only `00EE` and `2nnn` own. -/
theorem onlyCallAndReturnUseTheStackPointer : Obligations.OnlyCallAndReturnUseTheStackPointer := by
  intro i s sp hret hcall
  refine exec_mapHidden (fun _ => sp) id id i s (fun h => ?_) (fun _ => rfl) fun _ => rfl
  rcases h with h | ⟨addr, h⟩
  · exact absurd h hret
  · exact absurd h (hcall addr)

/-- Settles O19: writes of `ST` and of the latch are updates of the hidden parts that `Fx18` and `Fx0A` own, and those
two overwrite what they own. -/
theorem noInstructionReadsTheHiddenState : Obligations.NoInstructionReadsTheHiddenState := by
  intro i s b w
  refine ⟨fun hst => ?_, ?_, fun hwait => ?_, ?_⟩
  · exact exec_mapHidden id (fun _ => b) id i s (fun _ => rfl) (fun ⟨x, h⟩ => absurd h (hst x)) fun _ => rfl
  · rintro x rfl
    rfl
  · exact exec_mapHidden id id (fun _ => w) i s (fun _ => rfl) (fun _ => rfl) fun ⟨x, h⟩ => absurd h (hwait x)
  · rintro x rfl
    rfl

end Sys2Proof.Machine

namespace Sys2Proof.Machine

/-! PROOFS. The operations a host performs between ticks (60_exceptions.md sections 6 to 8, R39, R223), and what every
schedule of them keeps (R202). -/

/-! ### The state a host operation leaves -/

/-- The state an operation without a reply leaves, an error's and a refusal's included (R186). -/
def leftBy (o : Outcome) (s : State) : State :=
  match o with
  | .next t => t
  | .fault f => f.after
  | .refused _ => s

theorem afterCall_of_replyDone {c : HostCall} {s : State} {o : Outcome} (h : hostCall c s = replyDone o) :
    afterCall c s = leftBy o s := by
  rw [afterCall, h]
  cases o <;> rfl

/-- An operation that answers, or fails, with the state as it was. -/
def IsQuery (o : HostOutcome) (s : State) : Prop := (∃ r, o = .next (s, r)) ∨ ∃ f, o = .fault f ∧ f.after = s

theorem afterCall_of_isQuery {c : HostCall} {s : State} (h : IsQuery (hostCall c s) s) : afterCall c s = s := by
  rcases h with ⟨r, h⟩ | ⟨f, h, hf⟩ <;> rw [afterCall, h]
  exact hf

theorem isQuery_replyByte (b : Except AccessError Byte) (s : State) : IsQuery (replyByte b s) s := by
  cases b with
  | ok b => exact .inl ⟨_, rfl⟩
  | error e => exact .inr ⟨_, rfl, toFault_after e s⟩

theorem isQuery_isKeyPressed (k : Nat) (s : State) : IsQuery (isKeyPressed k s) s := by
  rw [isKeyPressed]
  split
  · exact .inl ⟨_, rfl⟩
  · exact .inr ⟨_, rfl, rfl⟩

theorem isQuery_readReg (r : HostReg) (s : State) : IsQuery (readReg r s) s := by
  cases r with
  | v k =>
    rw [readReg]
    split
    · exact .inl ⟨_, rfl⟩
    · exact .inr ⟨_, rfl, rfl⟩
  | i | pc | sp | dt | st => exact .inl ⟨_, rfl⟩

theorem isQuery_hostGetPixel (r c : Nat) (s : State) : IsQuery (hostGetPixel r c s) s := by
  rw [hostGetPixel]
  split
  · exact .inl ⟨_, rfl⟩
  · exact .inr ⟨_, rfl, rfl⟩

/-- The wait latch and the devices are kept. -/
def KeepsMachine (s t : State) : Prop := t.wait = s.wait ∧ KeepsDevices s t

theorem keepsMachine_refl (s : State) : KeepsMachine s s := ⟨rfl, rfl, rfl, rfl, id⟩

theorem KeepsMachine.trans {s t u : State} (h : KeepsMachine s t) (g : KeepsMachine t u) : KeepsMachine s u := by
  obtain ⟨hw, hr, hwr, hsize, hwf⟩ := h
  obtain ⟨gw, gr, gwr, gsize, gwf⟩ := g
  exact ⟨gw.trans hw, gr.trans hr, gwr.trans hwr, gsize.trans hsize, gwf ∘ hwf⟩

theorem keepsMachine_of_devices {s t : State} (h : t = { s with mem := t.mem, screen := t.screen })
    (hsize : t.mem.size = s.mem.size) (hwf : s.mem.wf → t.mem.wf) : KeepsMachine s t := by
  obtain ⟨hk, -, hwait⟩ := keepsDevices_of_devices h hsize hwf
  exact ⟨hwait, hk⟩

theorem afterCall_tick_keeps (s : State) : KeepsDevices s (afterCall .tick s) := by
  rw [afterCall_of_replyDone (o := step s) rfl]
  rcases step_keepsDevices s with ⟨t, h, hk⟩ | ⟨f, h, hk⟩ <;> rw [h] <;> exact hk

theorem pressKey_keeps (k : Fin 16) (p : Bool) (s : State) : KeepsDevices s (pressKey k p s) := by
  rw [pressKey, resolveWait]
  split <;> exact ⟨rfl, rfl, rfl, id⟩

theorem afterCall_setKeyPressed_keeps (k : Nat) (p : Bool) (s : State) :
    KeepsDevices s (afterCall (.setKeyPressed k p) s) := by
  rw [afterCall_of_replyDone (o := setKeyPressed k p s) rfl, setKeyPressed]
  split
  · exact pressKey_keeps _ p s
  · exact ⟨rfl, rfl, rfl, id⟩

theorem afterCall_waitForKeyPress (t : Nat) (s : State) :
    afterCall (.waitForKeyPress t) s = s ∨ ∃ r, afterCall (.waitForKeyPress t) s = s.armWait r := by
  rw [afterCall_of_replyDone (o := waitForKeyPress t s) rfl, waitForKeyPress]
  split
  · exact .inr ⟨_, rfl⟩
  · exact .inl rfl

theorem writeFitting_leaves {s : State} {width value : Nat} {write : BitVec width → State}
    (h : ∀ b, KeepsMachine s (write b)) : KeepsMachine s (leftBy (writeFitting width value write) s) := by
  rw [writeFitting]
  split
  · exact h _
  · exact keepsMachine_refl s

theorem afterCall_writeReg_keeps (r : HostReg) (value : Nat) (s : State) :
    KeepsMachine s (afterCall (.writeReg r value) s) := by
  rw [afterCall_of_replyDone (o := writeReg r value s) rfl]
  cases r with
  | v k =>
    rw [writeReg]
    split
    · exact writeFitting_leaves fun b => ⟨rfl, rfl, rfl, rfl, id⟩
    · exact keepsMachine_refl s
  | i | pc | sp | dt | st => exact writeFitting_leaves fun b => ⟨rfl, rfl, rfl, rfl, id⟩

theorem busWrite_leaves {s t : State} {a : Nat} {b : Byte} (h : s.busWrite a b = .ok t) : KeepsMachine s t := by
  rw [State.busWrite] at h
  split at h
  · obtain ⟨hrest, hsize, hwf⟩ := deviceWrite_leaves h
    exact keepsMachine_of_devices hrest hsize hwf
  · cases h

theorem replyWritten_leaves {s : State} {o : Except AccessError State} (h : ∀ t, o = .ok t → KeepsMachine s t) :
    KeepsMachine s (leftBy (replyWritten o s) s) := by
  cases o with
  | ok t => exact h t rfl
  | error e =>
    rw [replyWritten, raise, leftBy, toFault_after]
    exact keepsMachine_refl s

/-- Whatever a load answers, it leaves the latch, the registries and the capacity. -/
theorem loadBytesAt_leaves (image : List Byte) (a : Nat) (s : State) :
    ∃ t, KeepsMachine s t ∧
      (loadBytesAt image a s = .next t ∨ ∃ e, loadBytesAt image a s = .fault (AccessError.toFault e t)) := by
  induction image generalizing a s with
  | nil => exact ⟨s, keepsMachine_refl s, .inl rfl⟩
  | cons b rest ih =>
    rw [loadBytesAt]
    cases hd : s.deviceWrite .memory a b with
    | ok t =>
      obtain ⟨hrest, hsize, hwf⟩ := deviceWrite_leaves hd
      obtain ⟨u, hu, hans⟩ := ih (a + 1) t
      exact ⟨u, (keepsMachine_of_devices hrest hsize hwf).trans hu, hans⟩
    | error e => exact ⟨s, keepsMachine_refl s, .inr ⟨e, rfl⟩⟩

theorem afterCall_loadProgram_keeps (image : List Byte) (s : State) :
    KeepsMachine s (afterCall (.loadProgram image) s) := by
  rw [afterCall_of_replyDone (o := loadBytesAt image 0x200 s) rfl]
  obtain ⟨t, hk, h | ⟨e, h⟩⟩ := loadBytesAt_leaves image 0x200 s <;> rw [h]
  · exact hk
  · rw [leftBy, toFault_after]
    exact hk

/-- A registration leaves the state, or appends to one registry a range that is not inverted and does not conflict
(R60, R61). -/
theorem register_leaves (dir : Direction) (range : Registration) (s : State) :
    leftBy (register dir range s) s = s ∨ ∃ e : BusEntry, e.lower ≤ e.upper ∧
      ((∀ f ∈ s.readable, f.conflicts e = false) ∧
          leftBy (register dir range s) s = { s with readable := s.readable ++ [e] } ∨
        (∀ f ∈ s.writable, f.conflicts e = false) ∧
          leftBy (register dir range s) s = { s with writable := s.writable ++ [e] }) := by
  by_cases hle : range.lower ≤ range.upper
  · cases hdev : Device.toBus range.dev with
    | none =>
      have hinput : range.dev = .input := by
        cases hd : range.dev <;> simp [hd, Device.toBus] at hdev ⊢
      rw [(register_refused_iff dir range s _).2 (.inr ⟨hle, hinput, rfl⟩)]
      exact .inl rfl
    | some dev =>
      rcases register_cases dir range s hdev hle with h | ⟨-, hc, h⟩ | ⟨-, hc, h⟩ <;> rw [h]
      · exact .inl rfl
      · exact .inr ⟨⟨dev, range.lower, range.upper⟩, hle, .inl ⟨hc, rfl⟩⟩
      · exact .inr ⟨⟨dev, range.lower, range.upper⟩, hle, .inr ⟨hc, rfl⟩⟩
  · rw [(register_refused_iff dir range s _).2 (.inl ⟨Nat.lt_of_not_le hle, rfl⟩)]
    exact .inl rfl

theorem afterCall_setPixel_keeps (r c : Nat) (lit : Bool) (s : State) :
    KeepsMachine s (afterCall (.setPixel r c lit) s) := by
  rw [afterCall_of_replyDone (o := hostSetPixel r c lit s) rfl, hostSetPixel]
  split <;> exact ⟨rfl, rfl, rfl, rfl, id⟩

theorem afterCall_deviceWrite_keeps (dev : BusDevice) (a : Nat) (b : Byte) (s : State) :
    KeepsMachine s (afterCall (.deviceWrite dev a b) s) := by
  rw [afterCall_of_replyDone (o := replyWritten (s.deviceWrite dev a b) s) rfl]
  refine replyWritten_leaves fun t h => ?_
  obtain ⟨hrest, hsize, hwf⟩ := deviceWrite_leaves h
  exact keepsMachine_of_devices hrest hsize hwf

theorem afterCall_busWrite_keeps (a : Nat) (b : Byte) (s : State) : KeepsMachine s (afterCall (.busWrite a b) s) := by
  rw [afterCall_of_replyDone (o := replyWritten (s.busWrite a b) s) rfl]
  exact replyWritten_leaves fun t h => busWrite_leaves h

theorem keepsMachine_of_isQuery {c : HostCall} {s : State} (h : IsQuery (hostCall c s) s) :
    KeepsMachine s (afterCall c s) := by
  rw [afterCall_of_isQuery h]
  exact keepsMachine_refl s

/-- What a host operation is to the invariant: a tick, a key event, a wait or a registration, or one that keeps all the
invariant speaks of. -/
inductive HostStep (c : HostCall) (s : State) : Prop
  | tick (call : c = .tick)
  | key (k : Nat) (p : Bool) (call : c = .setKeyPressed k p)
  | wait (t : Nat) (call : c = .waitForKeyPress t)
  | registration (dir : Direction) (range : Registration) (left : afterCall c s = leftBy (register dir range s) s)
  | other (keeps : KeepsMachine s (afterCall c s))

theorem hostStep (c : HostCall) (s : State) : HostStep c s := by
  cases c with
  | tick => exact .tick rfl
  | setKeyPressed k p => exact .key k p rfl
  | waitForKeyPress t => exact .wait t rfl
  | registerReadable range => exact .registration .read range (afterCall_of_replyDone rfl)
  | registerWritable range => exact .registration .write range (afterCall_of_replyDone rfl)
  | writeReg r value => exact .other (afterCall_writeReg_keeps r value s)
  | loadProgram image => exact .other (afterCall_loadProgram_keeps image s)
  | deviceWrite dev a b => exact .other (afterCall_deviceWrite_keeps dev a b s)
  | busWrite a b => exact .other (afterCall_busWrite_keeps a b s)
  | setPixel r c lit => exact .other (afterCall_setPixel_keeps r c lit s)
  | tickTimers | clear => exact .other ⟨rfl, rfl, rfl, rfl, id⟩
  | hasExecutionHalted => exact .other (keepsMachine_refl s)
  | isKeyPressed k => exact .other (keepsMachine_of_isQuery (isQuery_isKeyPressed k s))
  | readReg r => exact .other (keepsMachine_of_isQuery (isQuery_readReg r s))
  | getPixel r c => exact .other (keepsMachine_of_isQuery (isQuery_hostGetPixel r c s))
  | deviceRead dev a => exact .other (keepsMachine_of_isQuery (isQuery_replyByte _ s))
  | busRead a => exact .other (keepsMachine_of_isQuery (isQuery_replyByte _ s))

/-! ### The invariant over schedules -/

/-- An appended range that is not inverted and conflicts with no entry keeps a registry valid (R60, R61). -/
theorem registryValid_append {es : List BusEntry} {e : BusEntry} (h : registryValid es) (he : e.lower ≤ e.upper)
    (hc : ∀ f ∈ es, f.conflicts e = false) : registryValid (es ++ [e]) := by
  obtain ⟨hle, hpair⟩ := h
  refine ⟨fun f hf => ?_, List.pairwise_append.2 ⟨hpair, List.pairwise_singleton _ _, fun f hf g hg => ?_⟩⟩
  · rcases List.mem_append.1 hf with hf | hf
    · exact hle f hf
    · rw [List.mem_singleton.1 hf]
      exact he
  · rw [List.mem_singleton.1 hg]
    exact hc f hf

theorem register_valid {s : State} (hs : s.Valid) (dir : Direction) (range : Registration) :
    (leftBy (register dir range s) s).Valid := by
  obtain ⟨hwf, hmin, hmax, hread, hwrite⟩ := id hs
  rcases register_leaves dir range s with h | ⟨e, hle, ⟨hc, h⟩ | ⟨hc, h⟩⟩ <;> rw [h]
  · exact hs
  · exact ⟨hwf, hmin, hmax, registryValid_append hread hle hc, hwrite⟩
  · exact ⟨hwf, hmin, hmax, hread, registryValid_append hwrite hle hc⟩

theorem afterCall_valid (c : HostCall) {s : State} (hs : s.Valid) : (afterCall c s).Valid := by
  cases hostStep c s with
  | tick call => exact call ▸ (valid_of_keepsDevices hs (afterCall_tick_keeps s)).1
  | key k p call => exact call ▸ (valid_of_keepsDevices hs (afterCall_setKeyPressed_keeps k p s)).1
  | wait t call =>
    rcases afterCall_waitForKeyPress t s with h | ⟨r, h⟩ <;> rw [call, h] <;> exact hs
  | registration dir range left => exact left ▸ register_valid hs dir range
  | other keeps => exact (valid_of_keepsDevices hs keeps.2).1

/-- Settles O15: one operation keeps the invariant, and a schedule is one after another. -/
theorem everyHostScheduleKeepsTheStateValid : Obligations.EveryHostScheduleKeepsTheStateValid := by
  intro calls
  induction calls with
  | nil => exact fun s hs => hs
  | cons c rest ih => exact fun s hs => ih _ (afterCall_valid c hs)

/-! ### Waits -/

theorem register_wait (dir : Direction) (range : Registration) (s : State) :
    (leftBy (register dir range s) s).wait = s.wait := by
  rcases register_leaves dir range s with h | ⟨e, -, ⟨-, h⟩ | ⟨-, h⟩⟩ <;> rw [h]

/-- A key event that is no press edge leaves the latch (R193). -/
theorem pressKey_wait {k : Fin 16} {p : Bool} {s : State} (h : ¬ (p = true ∧ s.keyPressed k = false)) :
    (pressKey k p s).wait = s.wait := by
  have hedge : (p && !s.keyPressed k) = false := by simpa using h
  simp only [pressKey, resolveWait, hedge, Bool.and_false, Bool.false_eq_true, if_false]

/-- Settles O21: a tick while Halted does nothing, a wait that is asked for is pending, and every other operation leaves
the latch but a key event, which ends the wait on an edge alone. -/
theorem onlyAPressEdgeEndsAWait : Obligations.OnlyAPressEdgeEndsAWait := by
  intro c s hs hended
  cases hostStep c s with
  | tick call =>
    rw [call, afterCall_of_replyDone (o := step s) rfl, step_halted hs] at hended
    exact absurd hs hended
  | wait t call =>
    rcases afterCall_waitForKeyPress t s with h | ⟨r, h⟩ <;> rw [call, h] at hended
    · exact absurd hs hended
    · exact absurd rfl hended
  | registration dir range left =>
    rw [left, State.halted, register_wait] at hended
    exact absurd hs hended
  | other keeps =>
    rw [State.halted, keeps.1] at hended
    exact absurd hs hended
  | key k p call =>
    rw [call, afterCall_of_replyDone (o := setKeyPressed k p s) rfl, setKeyPressed] at hended
    split at hended
    · next hk =>
      by_cases hedge : p = true ∧ s.keyPressed ⟨k, hk⟩ = false
      · obtain ⟨rfl, hkey⟩ := hedge
        exact ⟨⟨k, hk⟩, call, hkey⟩
      · rw [leftBy, State.halted, pressKey_wait hedge] at hended
        exact absurd hs hended
    · exact absurd hs hended

end Sys2Proof.Machine

namespace Sys2Proof.Machine

/-! PROOFS. The bus's routing (20_memory.md sections 5, 6, 9), the host's single operations (60_exceptions.md sections 6,
7, R39, R223) and the reset state (R40). -/

/-! ### Keys, waits, timers and registers -/

theorem exec_ldVxK (x : Reg) (s : State) : exec (.ldVxK x) s = .next (s.armWait x) := rfl

/-- Settles O50: a single write of the latch. -/
theorem waitInstructionArmsTheLatch : Obligations.WaitInstructionArmsTheLatch :=
  fun x s => ⟨_, exec_ldVxK x s, rfl, rfl, onlyChanges_armWait s x⟩

theorem exec_rnd (x : Reg) (kk : Byte) (s : State) :
    exec (.rnd x kk) s = .next (s.drawn.writeV x (s.randomByte &&& kk)) := rfl

/-- Settles O41: the draw is masked by a bitwise AND, then written; nothing is asked of its value. -/
theorem randomByteIsMasked : Obligations.RandomByteIsMasked := by
  intro x kk s
  refine ⟨_, exec_rnd x kk s, readV_writeV_self .., fun j => ?bits, fun hkk => ?zero, rfl,
    (onlyChanges_drawn s).trans (onlyChanges_writeV ..)⟩
  case bits =>
    rw [readV_writeV_self, BitVec.getLsbD_and, Bool.and_eq_true]
    exact And.right
  case zero =>
    rw [readV_writeV_self, hkk]
    exact BitVec.and_zero

theorem countDown_toNat (b : Byte) : (countDown b).toNat = b.toNat - 1 := by
  rw [countDown]
  split
  · next hb => rw [hb]; rfl
  · next hb =>
    have hpos : b.toNat ≠ 0 := fun h => hb (BitVec.eq_of_toNat_eq h)
    have hone : (1 : Byte).toNat = 1 := rfl
    rw [BitVec.toNat_sub, hone]
    omega

theorem onlyChanges_tickTimers (s : State) : OnlyChanges [] [.dt, .st] s (tickTimers s) :=
  (onlyChanges_writeDt s (countDown s.dt)).trans (onlyChanges_writeSt _ (countDown s.st))

/-- Settles O52: each timer is counted down by one subtraction that stops at 0. -/
theorem tickTimersCountsDownToZero : Obligations.TickTimersCountsDownToZero :=
  fun s => ⟨tickTimers s, rfl, countDown_toNat s.dt, countDown_toNat s.st, onlyChanges_tickTimers s⟩

theorem setKeyPressed_key (k : Fin 16) (p : Bool) (s : State) : setKeyPressed k.val p s = .next (pressKey k p s) :=
  dif_pos k.isLt

/-- The state with one key's state set and nothing else changed. -/
def State.setKey (s : State) (k : Fin 16) (p : Bool) : State := { s with keys := s.keys.set k p }

theorem keyPressed_setKey (s : State) (k j : Fin 16) (p : Bool) :
    (s.setKey k p).keyPressed j = if k = j then p else s.keyPressed j := by
  simp only [State.setKey, State.keyPressed, Fin.getElem_fin, Vector.getElem_set, Fin.ext_iff]

theorem onlyChanges_setKey (s : State) (k : Fin 16) (p : Bool) : OnlyChanges [] [.keys] s (s.setKey k p) :=
  ⟨fun _ _ => rfl, fun c hc => by cases c <;> simp_all [Component.same, State.setKey]⟩

/-- The end of a wait: the key's number goes to the waiting register (R194). -/
def State.resolved (s : State) (k : Fin 16) : State :=
  { (s.writeV s.wait.target (BitVec.ofNat 8 k.val)) with wait := ⟨s.wait.target, false⟩ }

theorem readV_resolved_target (s : State) (k : Fin 16) : ((s.resolved k).readV s.wait.target).toNat = k.val := by
  have hread : (s.resolved k).readV s.wait.target = BitVec.ofNat 8 k.val := readV_writeV_self ..
  rw [hread, BitVec.toNat_ofNat]
  omega

theorem onlyChanges_resolved (s : State) (k : Fin 16) : OnlyChanges [s.wait.target] [.wait] s (s.resolved k) :=
  ⟨fun r hr => readV_writeV_ne s _ fun h => hr (by simp [h]),
    fun c hc => by cases c <;> simp_all [Component.same, State.resolved, State.keyPressed]⟩

/-- A press edge while a wait is pending sets the key and then ends the wait. -/
theorem pressKey_edge {k : Fin 16} {p : Bool} {s : State} (h : s.halted ∧ p = true ∧ s.keyPressed k = false) :
    pressKey k p s = (s.setKey k p).resolved k := by
  obtain ⟨hs, rfl, hkey⟩ := h
  exact if_pos (by rw [hkey, show s.wait.active = true from hs]; rfl)

/-- Every other key event sets the key alone. -/
theorem pressKey_no_edge {k : Fin 16} {p : Bool} {s : State} (h : ¬ (s.halted ∧ p = true ∧ s.keyPressed k = false)) :
    pressKey k p s = s.setKey k p :=
  if_neg (by simpa using h)

theorem onlyChanges_pressKey_edge (s : State) (k : Fin 16) (p : Bool) :
    OnlyChanges [s.wait.target] [.keys, .wait] s ((s.setKey k p).resolved k) :=
  (onlyChanges_setKey s k p).trans (onlyChanges_resolved (s.setKey k p) k)

/-- Settles O51: the key is set in either case, and the wait is resolved exactly on an edge. -/
theorem keyEventsSetKeysAndResolveWaits : Obligations.KeyEventsSetKeysAndResolveWaits := by
  intro s p
  refine ⟨fun k => ⟨pressKey k p s, setKeyPressed_key k p s, ?_⟩, fun k hk => dif_neg (Nat.not_lt.2 hk)⟩
  have hset : (s.setKey k p).keyPressed k = p := by rw [keyPressed_setKey, if_pos rfl]
  have hother : ∀ j, j ≠ k → (s.setKey k p).keyPressed j = s.keyPressed j := fun j hj => by
    rw [keyPressed_setKey, if_neg hj.symm]
  by_cases hedge : s.halted ∧ p = true ∧ s.keyPressed k = false
  · rw [pressKey_edge hedge]
    exact ⟨hset, hother, rfl, fun _ => ⟨Bool.false_ne_true, readV_resolved_target (s.setKey k p) k,
      onlyChanges_pressKey_edge s k p⟩, fun h => absurd hedge h⟩
  · rw [pressKey_no_edge hedge]
    exact ⟨hset, hother, rfl, fun h => absurd h hedge, fun _ => onlyChanges_setKey s k p⟩

theorem hostCall_readReg_v (k : Reg) (s : State) :
    hostCall (.readReg (.v k.val)) s = .next (s, .number (s.readV k).toNat) := dif_pos k.isLt

theorem hostCall_writeReg_v (k : Reg) (value : Nat) (s : State) :
    hostCall (.writeReg (.v k.val) value) s = replyDone (writeFitting 8 value (s.writeV k)) :=
  congrArg replyDone (dif_pos k.isLt)

theorem writeFitting_fits {width value : Nat} (h : value < 2 ^ width) (write : BitVec width → State) :
    writeFitting width value write = .next (write (BitVec.ofNat width value)) := if_pos h

theorem writeFitting_wide {width value : Nat} (h : 2 ^ width ≤ value) (write : BitVec width → State) :
    writeFitting width value write = .refused (.valueTooWide value) := if_neg (Nat.not_lt.2 h)

/-- Settles O60: the index is in range exactly for the sixteen registers, and a value fits exactly below 256. -/
theorem registerAccessorsAreBounded : Obligations.RegisterAccessorsAreBounded := by
  intro s value
  refine ⟨fun k => ⟨hostCall_readReg_v k s, fun hv => ⟨s.writeV k (BitVec.ofNat 8 value), ?fits, ?read,
    onlyChanges_writeV ..⟩, fun hv => ?wide⟩, fun k hk => ⟨dif_neg (Nat.not_lt.2 hk), ?index⟩⟩
  case fits =>
    rw [hostCall_writeReg_v, writeFitting_fits hv]
    rfl
  case read =>
    rw [readV_writeV_self, BitVec.toNat_ofNat]
    exact Nat.mod_eq_of_lt hv
  case wide =>
    rw [hostCall_writeReg_v, writeFitting_wide hv]
    rfl
  case index => exact congrArg replyDone (dif_neg (Nat.not_lt.2 hk))

/-! ### Registrations -/

theorem conflicts_iff (e f : BusEntry) : e.conflicts f = true ↔ e.upper > f.lower ∧ f.upper > e.lower := by
  simp [BusEntry.conflicts]

theorem any_conflicts_iff (es : List BusEntry) (d : BusDevice) (lower upper : Nat) :
    es.any (·.conflicts ⟨d, lower, upper⟩) = true ↔ ∃ e ∈ es, e.upper > lower ∧ upper > e.lower := by
  simp only [List.any_eq_true, conflicts_iff]

theorem toBus_of_busDevice (d : BusDevice) : Device.toBus (if d = .memory then .memory else .screen) = some d := by
  cases d <;> rfl

theorem register_read {range : Registration} {d : BusDevice} (hle : range.lower ≤ range.upper)
    (hd : Device.toBus range.dev = some d) (s : State) : register .read range s =
      if s.readable.any (·.conflicts ⟨d, range.lower, range.upper⟩) then .fault (.rangeConflict .read range s)
      else .next { s with readable := s.readable ++ [⟨d, range.lower, range.upper⟩] } := by
  rw [register, if_neg (Nat.not_lt.2 hle), hd]

theorem register_write {range : Registration} {d : BusDevice} (hle : range.lower ≤ range.upper)
    (hd : Device.toBus range.dev = some d) (s : State) : register .write range s =
      if s.writable.any (·.conflicts ⟨d, range.lower, range.upper⟩) then .fault (.rangeConflict .write range s)
      else .next { s with writable := s.writable ++ [⟨d, range.lower, range.upper⟩] } := by
  rw [register, if_neg (Nat.not_lt.2 hle), hd]

/-- Settles O56: the three tests in order; the model's overlap test is R61's, entry by entry. -/
theorem registrationAddsOnlyWhatDoesNotConflict : Obligations.RegistrationAddsOnlyWhatDoesNotConflict := by
  intro s lower upper
  refine ⟨fun hlt dir dev => (register_refused_iff ..).2 (.inl ⟨hlt, rfl⟩),
    fun hle dir => (register_refused_iff ..).2 (.inr ⟨hle, rfl, rfl⟩), fun hle d => ?_⟩
  intro range
  have hd : Device.toBus range.dev = some d := toBus_of_busDevice d
  rw [register_read (range := range) hle hd, register_write (range := range) hle hd]
  exact ⟨fun h => if_pos ((any_conflicts_iff ..).2 h), fun h => if_neg fun hc => h ((any_conflicts_iff ..).1 hc),
    fun h => if_pos ((any_conflicts_iff ..).2 h), fun h => if_neg fun hc => h ((any_conflicts_iff ..).1 hc)⟩

/-! ### Routing -/

theorem busRead_of_route {s : State} {a l : Nat} {dev : BusDevice} (h : route s.readable a = some (dev, l)) :
    s.busRead a = s.deviceRead dev l := by
  rw [State.busRead, h]

theorem busRead_of_unrouted {s : State} {a : Nat} (h : route s.readable a = none) :
    s.busRead a = .error (.unmapped .read a) := by
  rw [State.busRead, h]

theorem busWrite_of_route {s : State} {a l : Nat} {dev : BusDevice} (h : route s.writable a = some (dev, l))
    (b : Byte) : s.busWrite a b = s.deviceWrite dev l b := by
  rw [State.busWrite, h]

theorem busWrite_of_unrouted {s : State} {a : Nat} (h : route s.writable a = none) (b : Byte) :
    s.busWrite a b = .error (.unmapped .write a) := by
  rw [State.busWrite, h]

/-- A read or a write of a device outside its capacity fails (R42, R43, R58). -/
theorem device_outside (s : State) {dev : BusDevice} {l : Nat} (b : Byte) (h : s.capacity dev ≤ l) :
    s.deviceRead dev l = .error (.outOfRange dev l) ∧ s.deviceWrite dev l b = .error (.outOfRange dev l) := by
  cases dev with
  | memory =>
    refine ⟨memory_read_outside h, ?_⟩
    rw [State.deviceWrite, memory_write_outside b h]
  | screen =>
    have hw : s.screen.write l b = .error (.outOfRange .screen l) := if_neg (Nat.not_lt.2 h)
    refine ⟨if_neg (Nat.not_lt.2 h), ?_⟩
    rw [State.deviceWrite, hw]

theorem deviceWrite_inside (s : State) {dev : BusDevice} {l : Nat} (b : Byte) (h : l < s.capacity dev) :
    ∃ t, s.deviceWrite dev l b = .ok t := by
  cases dev with
  | memory => exact ⟨_, by rw [State.deviceWrite, memory_write_inside b h]⟩
  | screen => exact ⟨_, by rw [State.deviceWrite, screen_write_inside s.screen b h]⟩

/-- Settles O57: a valid registry routes an address to the one entry that contains it, and the devices answer by their
capacity. -/
theorem busRoutesToTheOnlyEntry : Obligations.BusRoutesToTheOnlyEntry := by
  intro s a
  refine ⟨fun hv => ⟨fun e he hl hu => busRead_of_route (route_of_contains hv he hl hu),
      fun h => busRead_of_unrouted (route_of_not_contains h)⟩,
    fun hv b => ⟨fun e he hl hu => busWrite_of_route (route_of_contains hv he hl hu) b,
      fun h => busWrite_of_unrouted (route_of_not_contains h) b⟩,
    fun l => ⟨memory_read_inside, fun h => if_pos h⟩,
    fun dev l b => ⟨deviceWrite_inside s b, device_outside s b⟩⟩

/-- Settles O54: the store changes one byte of memory, and a read sees it exactly if it is routed to that byte. -/
theorem storesAreSeenThroughEveryRange : Obligations.StoresAreSeenThroughEveryRange := by
  intro s t a m b hwf hroute hwrite c
  obtain ⟨hbytes, hpixels⟩ := busWrite_stored hwf hwrite
  have hread : t.readable = s.readable := (busWrite_leaves hwrite).2.readable
  have hsize : t.mem.size = s.mem.size := (busWrite_wf hwf hwrite).2
  have hm : m < t.mem.size := by
    rw [hsize]
    by_contra hout
    have hfull : s.capacity .memory ≤ m := Nat.le_of_not_lt hout
    rw [busWrite_of_route hroute, (device_outside s b hfull).2] at hwrite
    cases hwrite
  refine ⟨fun hc => ?seen, fun hc => busRead_same_of_cell hread hsize (fun k hk => ?byte) fun k hk hkroute => ?pixels⟩
  case seen =>
    rw [busRead_of_route (hread ▸ hc)]
    exact (memory_read_inside hm).trans (by rw [hbytes, if_pos hroute])
  case byte =>
    rw [hbytes, if_neg]
    intro hk'
    exact hc (by rw [hk, ← hk', hroute])
  case pixels =>
    rw [hpixels k hk, if_neg]
    simp [hroute]

/-! ### Reset -/

theorem route_single (d : BusDevice) (n a : Nat) : route [⟨d, 0, n⟩] a = if a < n then some (d, a) else none := by
  by_cases h : a < n <;> simp [route, BusEntry.contains, h]

/-- Under the default map a read is a read of memory (R62). -/
theorem busRead_of_defaultMap {s : State} (h : s.readable = [⟨.memory, 0, s.mem.size⟩]) {a : Nat}
    (ha : a < s.mem.size) : s.busRead a = .ok (s.mem.byteAt a) := by
  rw [busRead_of_route (dev := .memory) (l := a) (by rw [h, route_single, if_pos ha])]
  exact memory_read_inside ha

theorem canWrite_of_defaultMap {s : State} (h : s.writable = [⟨.memory, 0, s.mem.size⟩]) (a : Nat) :
    s.canWrite a = true ↔ a < s.mem.size := by
  rw [State.canWrite, h, route_single]
  by_cases ha : a < s.mem.size <;> simp [ha, State.capacity]

theorem reset_busRead (a : Nat) (b : Byte) :
    State.reset.busRead a = .ok b ↔ a < 4096 ∧ b = Config.standardFont.toList.getD a 0 := by
  by_cases ha : a < 4096
  · have hread : State.reset.busRead a = .ok (Config.standardFont.toList.getD a 0) :=
      busRead_of_defaultMap (s := State.reset) rfl ha
    simp [hread, ha, eq_comm]
  · have hread : State.reset.busRead a = .error (.unmapped .read a) :=
      busRead_of_unrouted (by rw [State.reset]; exact (route_single ..).trans (if_neg ha))
    simp [hread, ha]

/-- Settles O58: each piece of the reset state as its definition lists it; the map makes memory's bytes the bus's. -/
theorem resetHoldsTheResetValues : Obligations.ResetHoldsTheResetValues :=
  ⟨fun _ => Vector.getElem_replicate .., rfl, rfl, rfl, rfl, rfl, getPixel_clear State.reset.screen,
    fun _ => Vector.getElem_replicate .., Bool.false_ne_true, rfl, rfl, rfl, rfl,
    canWrite_of_defaultMap (s := State.reset) rfl, reset_busRead⟩

/-! ### Program load -/

/-- `t` is `s` with the image's bytes in memory from `a` on (R223). -/
def Loaded (image : List Byte) (a : Nat) (s t : State) : Prop :=
  t = { s with mem := t.mem } ∧ t.mem.wf ∧ t.mem.size = s.mem.size ∧ ∀ x, t.mem.byteAt x =
    if a ≤ x ∧ x < a + image.length then image.getD (x - a) 0 else s.mem.byteAt x

theorem loadBytesAt_loaded (image : List Byte) {a : Nat} {s : State} (hwf : s.mem.wf)
    (h : a + image.length ≤ s.mem.size) : ∃ t, loadBytesAt image a s = .next t ∧ Loaded image a s t := by
  induction image generalizing a s with
  | nil => exact ⟨s, rfl, rfl, hwf, rfl, fun x => (if_neg (by simp)).symm⟩
  | cons b rest ih =>
    rw [List.length_cons] at h
    have ha : a < s.mem.size := by omega
    have hd : s.deviceWrite .memory a b = .ok { s with mem := s.mem.setByte a b } := by
      rw [State.deviceWrite, memory_write_inside b ha]
    obtain ⟨t, ht, hrest, htwf, hsize, hbytes⟩ := ih (a := a + 1) (s := { s with mem := s.mem.setByte a b })
      (setByte_wf hwf b ha) (show a + 1 + rest.length ≤ s.mem.size by omega)
    refine ⟨t, by rw [loadBytesAt, hd]; exact ht, hrest, htwf, hsize, fun x => ?_⟩
    rw [hbytes x, byteAt_setByte hwf, List.length_cons]
    by_cases hx : a = x
    · subst hx
      simp
    · by_cases hin : a + 1 ≤ x ∧ x < a + 1 + rest.length
      · have hsub : x - a = x - (a + 1) + 1 := by omega
        rw [if_pos hin, if_pos (by omega), hsub, List.getD_cons_succ]
      · rw [if_neg hin, if_neg hx, if_neg (by omega)]

theorem loadBytesAt_full (b : Byte) (rest : List Byte) {a : Nat} {s : State} (h : s.mem.size ≤ a) :
    loadBytesAt (b :: rest) a s = .fault (.outOfRange (.address .memory a) s) := by
  rw [loadBytesAt, (device_outside s (dev := .memory) b h).2]
  rfl

theorem onlyChanges_memory {s t : State} (h : t = { s with mem := t.mem }) : OnlyChanges [] [.mem] s t := by
  generalize t.mem = m at h
  subst h
  exact ⟨fun _ _ => rfl, fun c hc => by cases c <;> simp_all [Component.same, State.keyPressed]⟩

/-- Settles O59: what fits is copied byte by byte; a longer image stops at the capacity, after the part that fits. -/
theorem programLoadCopiesTheImage : Obligations.ProgramLoadCopiesTheImage := by
  intro s image hwf hmin
  refine ⟨fun hfits => ?_, fun hlong => ?_⟩
  · obtain ⟨t, ht, hrest, -, hsize, hbytes⟩ := loadBytesAt_loaded image hwf (a := 0x200) (by omega)
    exact ⟨t, ht, onlyChanges_memory hrest, hsize, hbytes⟩
  · have hlen : (image.take (s.mem.size - 0x200)).length = s.mem.size - 0x200 :=
      List.length_take_of_le (Nat.le_of_lt hlong)
    obtain ⟨t, ht, -, -, hsize, -⟩ := loadBytesAt_loaded (image.take (s.mem.size - 0x200)) hwf (a := 0x200) (by omega)
    refine ⟨t, ?_, ht⟩
    have hend : 0x200 + (image.take (s.mem.size - 0x200)).length = s.mem.size := by omega
    have hsplit := loadBytesAt_append _ (image.drop (s.mem.size - 0x200)) 0x200 ht
    rw [List.take_append_drop, hend, List.drop_eq_getElem_cons hlong,
      loadBytesAt_full _ _ (Nat.le_of_eq hsize)] at hsplit
    exact hsplit

end Sys2Proof.Machine

namespace Sys2Proof.Machine

/-! PROOFS. The control transfers, the skips and the shifts (42_control.md, 43_skip.md, 44_alu.md R149, R151). -/

/-! ### Returns and jumps -/

theorem exec_ret_pops {s : State} {h l : Byte} (hh : s.busRead s.sp.toNat = .ok h)
    (hl : s.busRead (s.sp.toNat + 1) = .ok l) :
    exec .ret s = .next ((s.writePc (wordOfBytes h l)).writeSp (poppedSp s.sp)) := by
  rw [exec_ret, withByte_ok (a := s.stackHigh) hh, withByte_ok (a := s.stackLow) hl]

/-- Settles O27: both reads succeed, so the popped word is written to `PC` and the moved pointer to `SP`. -/
theorem returnPopsPcAndMovesSp : Obligations.ReturnPopsPcAndMovesSp :=
  fun s h l hh hl => ⟨_, exec_ret_pops hh hl, wordOfBytes_toNat h l, BitVec.toNat_add s.sp 2,
    (onlyChanges_writePc s _).trans (onlyChanges_writeSp _ _)⟩

/-- Settles O28: the first read that fails raises on the state as it was. -/
theorem returnThatCannotReadChangesNothing : Obligations.ReturnThatCannotReadChangesNothing := by
  refine fun s e => ⟨fun hh => ?high, fun h hh hl => ?low⟩
  case high => rw [exec_ret, withByte_error (a := s.stackHigh) hh]
  case low => rw [exec_ret, withByte_ok (a := s.stackHigh) hh, withByte_error (a := s.stackLow) hl]

/-- Settles O29: both are a single write of `PC`. -/
theorem jumpsSetPc : Obligations.JumpsSetPc := by
  refine fun addr s => ⟨⟨_, exec_jp addr s, rfl, onlyChanges_writePc ..⟩, ?inside, ?offset⟩
  case inside =>
    rintro hwf ⟨-, hmin, -⟩
    exact Nat.lt_of_lt_of_le (fitsAddr_lt hwf) hmin
  case offset =>
    rintro ⟨-, hmin, hmax, -⟩
    exact ⟨_, exec_jpV0 addr s, offsetTarget_toNat hmax (by omega) addr, onlyChanges_writePc ..⟩

/-! ### Calls -/

theorem pushedSp_eq {sp : Word} {a : Nat} (ha : a = (sp.toNat + 65534) % 65536) : pushedSp sp = BitVec.ofNat 16 a := by
  apply BitVec.eq_of_toNat_eq
  have htwo : (2 : Word).toNat = 2 := rfl
  rw [pushedSp, BitVec.toNat_sub, BitVec.toNat_ofNat, htwo]
  omega

theorem pushing_sp_toNat {s : State} {a : Nat} (ha : a = (s.sp.toNat + 65534) % 65536) : s.pushing.sp.toNat = a := by
  rw [State.pushing, writeSp_sp, pushedSp_eq ha, BitVec.toNat_ofNat]
  omega

theorem pushStores_eq (s : State) :
    s.pushing.pushStores = [(s.pushing.sp.toNat, hiByte s.pc), (s.pushing.sp.toNat + 1, loByte s.pc)] := rfl

/-- The stores of a call, at the moved pointer: the advanced `PC`, high byte first (R126). -/
theorem pushing_pushStores {s : State} {a : Nat} (ha : a = (s.sp.toNat + 65534) % 65536) :
    s.pushing.pushStores = [(a, hiByte s.pc), (a + 1, loByte s.pc)] := by
  rw [pushStores_eq, pushing_sp_toNat ha]

/-- Settles O30: the two stores are done with `SP` moved, and `PC` is written last. -/
theorem callPushesTheReturnAddress : Obligations.CallPushesTheReturnAddress := by
  intro addr s a hwf ha hhigh hlow
  have hall : AllWritable s.pushing.pushStores s.pushing := by
    rw [pushing_pushStores ha]
    exact List.forall_mem_cons.2 ⟨hhigh, List.forall_mem_singleton.2 hlow⟩
  obtain ⟨u, hu, hrest, -, hstored⟩ := storeBytes_next (s := s.pushing) hwf hall
  have hsp : u.sp = s.pushing.sp := by rw [hrest]
  refine ⟨u.writePc addr, by rw [exec_call, hu]; rfl, rfl, ?sp, ?stored, ?frame⟩
  case sp => rw [writePc_sp, hsp, pushing_sp_toNat ha]
  case stored => exact pushing_pushStores ha ▸ hstored
  case frame =>
    exact (((onlyChanges_writeSp s _).trans (onlyChanges_devices hrest)).trans (onlyChanges_writePc u addr)).mono
      (by simp) (by simp)

/-- A write with `SP` moved is the write itself, with `SP` moved in the state it leaves: `SP` is no part of the bus. -/
theorem pushing_busWrite (s : State) (a : Nat) (b : Byte) :
    s.pushing.busWrite a b = (s.busWrite a b).map State.pushing :=
  busWrite_mapHidden pushedSp id id s a b

theorem pushing_eq {s : State} {a : Nat} (ha : a = (s.sp.toNat + 65534) % 65536) :
    s.pushing = { s with sp := BitVec.ofNat 16 a } := by
  rw [← pushedSp_eq ha]
  rfl

/-- Settles O31: the first store that fails raises its error with what is done before it, and `PC` is not reached. -/
theorem callThatCannotPushLeavesItsPartialEffects : Obligations.CallThatCannotPushLeavesItsPartialEffects := by
  refine fun addr s e a ha => ⟨fun hhigh => ?high, fun t hhigh hlow => ?low⟩
  case high =>
    rw [exec_call, pushing_pushStores ha, storeBytes, pushing_busWrite, hhigh, ← pushing_eq ha]
    rfl
  case low =>
    have hsp : t.sp = s.sp := by rw [busWrite_rest hhigh]
    rw [exec_call, pushing_pushStores ha, storeBytes, pushing_busWrite, hhigh]
    simp only [Except.map, storeBytes, pushing_busWrite, hlow]
    rw [← pushing_eq (hsp ▸ ha)]
    rfl

/-- Stores that completed were all to addresses that can be written. -/
theorem storeBytes_next_stored {s t : State} (hwf : s.mem.wf) {stores : List (Nat × Byte)}
    (h : storeBytes stores s = .next t) : AllWritable stores s ∧ Stored stores s t := by
  rcases storeBytes_cases hwf stores with ⟨hall, -⟩ | ⟨done, a, b, rest, u, e, -, -, -, hfault, -⟩
  · obtain ⟨u, hu, -, -, hstored⟩ := storeBytes_next hwf hall
    obtain rfl := Host.Outcome.next.inj (hu.symm.trans h)
    exact ⟨hall, hstored⟩
  · cases hfault.symm.trans h

theorem poppedSp_pushedSp (sp : Word) : poppedSp (pushedSp sp) = sp := BitVec.sub_add_cancel sp 2

/-- Under the default map, a completed push holds both bytes of the return address in memory, where a pop reads them. -/
theorem push_reads_back {s u : State} (hwf : s.mem.wf) (hread : s.readable = [⟨.memory, 0, s.mem.size⟩])
    (hwrite : s.writable = [⟨.memory, 0, s.mem.size⟩]) (h : storeBytes s.pushing.pushStores s.pushing = .next u) :
    u.busRead s.pushing.sp.toNat = .ok (hiByte s.pc) ∧ u.busRead (s.pushing.sp.toNat + 1) = .ok (loByte s.pc) := by
  obtain ⟨hall, hsize, hbytes, -⟩ := storeBytes_next_stored (s := s.pushing) hwf h
  have huread : u.readable = [⟨.memory, 0, u.mem.size⟩] := by
    rw [hsize, (storeBytes_next_rest h).1]
    exact hread
  have hroute : ∀ a, route s.pushing.writable a = if a < s.mem.size then some (.memory, a) else none := fun a => by
    rw [← route_single, ← hwrite]
    rfl
  rw [pushStores_eq] at hall hbytes
  generalize s.pushing.sp.toNat = a at *
  have hhigh : a < s.mem.size := (canWrite_of_defaultMap (s := s.pushing) hwrite a).1 (hall (a, hiByte s.pc) (by simp))
  have hlow : a + 1 < s.mem.size :=
    (canWrite_of_defaultMap (s := s.pushing) hwrite (a + 1)).1 (hall (a + 1, loByte s.pc) (by simp))
  constructor
  · rw [busRead_of_defaultMap huread (hsize ▸ hhigh), hbytes]
    simp [hroute, hhigh]
  · rw [busRead_of_defaultMap huread (hsize ▸ hlow), hbytes]
    simp [hroute, hlow]

/-- Settles O32: the return pops what the call pushed, and the two moves of `SP` cancel. -/
theorem callThenReturnComesBack : Obligations.CallThenReturnComesBack := by
  intro addr s t hwf hread hwrite hcall
  obtain ⟨u, hu, rfl⟩ := exec_call_next hcall
  have hsp : u.sp = s.pushing.sp := by rw [(storeBytes_next_rest hu).1]
  obtain ⟨hh, hl⟩ := push_reads_back hwf hread hwrite hu
  rw [← hsp] at hh hl
  refine ⟨_, exec_ret_pops (s := u.writePc addr) hh hl, wordOfBytes_split s.pc, ?_⟩
  rw [writeSp_sp, writePc_sp, hsp]
  exact poppedSp_pushedSp s.sp

/-! ### Skips -/

/-- A skip moves `PC` by 2, modulo the address space, exactly where its condition holds (R129). -/
theorem skip_moves_pc {i : Instr} {s : State} (hs : s.Valid) {c : Bool} (h : exec i s = .next (skipIf c s)) :
    ∃ t, exec i s = .next t ∧ t.pc.toNat = (if c then (s.pc.toNat + 2) % s.mem.size else s.pc.toNat) ∧
      OnlyChanges [] [.pc] s t := by
  obtain ⟨-, hmin, hmax, -⟩ := hs
  refine ⟨_, h, skipIf_pc_toNat hmax (by omega) c, ?_⟩
  rw [skipIf_eq_writePc]
  exact onlyChanges_writePc ..

theorem decide_toNat_eq (a b : Byte) : decide (a.toNat = b.toNat) = (a == b) := by
  rw [Bool.eq_iff_iff]
  simp [BitVec.toNat_inj]

theorem decide_toNat_ne (a b : Byte) : decide (a.toNat ≠ b.toNat) = (a != b) := by
  rw [decide_not, decide_toNat_eq]
  rfl

/-- Settles O33: the four conditions compare bytes, which are equal exactly if their numbers are. -/
theorem registerSkipsMovePcWhereTheConditionHolds : Obligations.RegisterSkipsMovePcWhereTheConditionHolds := by
  intro x y kk s hs p hp
  simp only [List.mem_cons, List.not_mem_nil, or_false, decide_toNat_eq, decide_toNat_ne] at hp
  rcases hp with rfl | rfl | rfl | rfl <;> exact skip_moves_pc hs rfl

theorem keyOf_eq {b : Byte} {k : Fin 16} (h : b.toNat % 16 = k.val) : keyOf b = k := Fin.ext h

/-- Settles O34: the two conditions are the selected key's state and its negation. -/
theorem keySkipsTestTheLowNibblesKey : Obligations.KeySkipsTestTheLowNibblesKey := by
  intro x k s hs hk
  have hkey := keyOf_eq hk
  obtain ⟨t, ht, hpc, hframe⟩ := skip_moves_pc hs (i := .sknp x) rfl
  refine ⟨hkey ▸ skip_moves_pc hs (i := .skp x) rfl, t, ht, ?_, hframe⟩
  rw [hpc, hkey]
  cases s.keyPressed k <;> rfl

/-! ### Shifts -/

theorem exec_shr (x y : Reg) (s : State) : exec (.shr x y) s =
    .next ((s.writeFlag (shiftedOutRight (s.readV y))).writeV x
      ((s.writeFlag (shiftedOutRight (s.readV y))).readV y >>> 1)) := rfl

theorem exec_shl (x y : Reg) (s : State) : exec (.shl x y) s =
    .next ((s.writeFlag (shiftedOutLeft (s.readV y))).writeV x
      ((s.writeFlag (shiftedOutLeft (s.readV y))).readV y <<< 1)) := rfl

theorem onlyChanges_flagThenResult (x : Reg) (flag result : Byte) (s : State) :
    OnlyChanges [x, 0xF] [] s ((s.writeFlag flag).writeV x result) :=
  ((onlyChanges_writeV s flagReg flag).trans (onlyChanges_writeV (s.writeFlag flag) x result)).mono
    (fun r hr => by simpa [flagReg, or_comm] using hr) (by simp)

/-- The flag is written first, so it stands unless `x` is the flag register. -/
theorem readV_flagThenResult_flag {x : Reg} (hx : x ≠ 0xF) (flag result : Byte) (s : State) :
    ((s.writeFlag flag).writeV x result).readV 0xF = flag :=
  (readV_writeV_ne _ result hx).trans (readV_writeV_self s flagReg flag)

theorem readV_writeFlag_self (s : State) (b : Byte) : (s.writeFlag b).readV 0xF = b := readV_writeV_self s flagReg b

theorem readV_writeFlag_ne {y : Reg} (hy : y ≠ 0xF) (s : State) (b : Byte) : (s.writeFlag b).readV y = s.readV y :=
  readV_writeV_ne s b hy.symm

theorem shiftedOutRight_toNat (b : Byte) : (shiftedOutRight b).toNat = b.toNat % 2 := by
  rw [shiftedOutRight, BitVec.toNat_and]
  exact Nat.and_one_is_mod b.toNat

theorem shiftedOutLeft_toNat (b : Byte) : (shiftedOutLeft b).toNat = b.toNat / 128 := by
  have hb := b.isLt
  rw [shiftedOutLeft, BitVec.toNat_and, BitVec.toNat_ushiftRight, Nat.shiftRight_eq_div_pow]
  exact (Nat.and_one_is_mod _).trans (by omega)

theorem shiftRight_one_toNat (b : Byte) : (b >>> 1).toNat = b.toNat / 2 := by
  rw [BitVec.toNat_ushiftRight, Nat.shiftRight_eq_div_pow, Nat.pow_one]

theorem shiftLeft_one_toNat (b : Byte) : (b <<< 1).toNat = b.toNat * 2 % 256 := by
  rw [BitVec.toNat_shiftLeft, Nat.shiftLeft_eq]

/-- Settles O40: the flag is the bit shifted out of `V[y]`, and what is shifted is `V[y]`, or the flag where `y` is
`0xF`. -/
theorem shiftsFollowTheirTables : Obligations.ShiftsFollowTheirTables := by
  intro x y s
  refine ⟨⟨_, exec_shr x y s, onlyChanges_flagThenResult .., fun hx => ?rightFlag, fun hy => ?right, ?rightOfFlag⟩,
    _, exec_shl x y s, onlyChanges_flagThenResult .., fun hx => ?leftFlag, fun hy => ?left, ?leftOfFlag⟩
  case rightFlag => rw [readV_flagThenResult_flag hx, shiftedOutRight_toNat]
  case right => rw [readV_writeV_self, readV_writeFlag_ne hy, shiftRight_one_toNat]
  case rightOfFlag =>
    rintro rfl
    rw [readV_writeV_self, readV_writeFlag_self, shiftRight_one_toNat, shiftedOutRight_toNat]
    omega
  case leftFlag => rw [readV_flagThenResult_flag hx, shiftedOutLeft_toNat]
  case left => rw [readV_writeV_self, readV_writeFlag_ne hy, shiftLeft_one_toNat]
  case leftOfFlag =>
    rintro rfl
    rw [readV_writeV_self, readV_writeFlag_self, shiftLeft_one_toNat, shiftedOutLeft_toNat]
    omega

end Sys2Proof.Machine

namespace Sys2Proof.Machine

/-! PROOFS. The memory transfers `Fx33`, `Fx55` and `Fx65` (45_index_memory.md R163 to R166). -/

/-! ### The stores, as bytes from an address on -/

/-- Bytes stored one after another from an address on (R78: the addresses do not wrap). -/
def storesFrom (a : Nat) (bytes : List Byte) : List (Nat × Byte) :=
  (List.range bytes.length).map fun j => (a + j, bytes.getD j 0)

/-- `V[0]` to `V[x]` (R164). -/
def blockBytes (x : Reg) (s : State) : List Byte := (List.range (x.val + 1)).map fun k => s.readV (Fin.ofNat 16 k)

theorem blockStores_eq (x : Reg) (s : State) : s.blockStores x =
    (List.range (x.val + 1)).map fun k => (s.i.toNat + k, s.readV (Fin.ofNat 16 k)) := by
  rw [State.blockStores, regsUpTo, List.map_map]
  refine List.map_congr_left fun k hk => ?_
  have hval : (Fin.ofNat 16 k).val = k := Nat.mod_eq_of_lt (by have := List.mem_range.1 hk; omega)
  simp only [Function.comp, State.indexAddress, hval]

theorem blockStores_eq_storesFrom (x : Reg) (s : State) : s.blockStores x = storesFrom s.i.toNat (blockBytes x s) := by
  rw [blockStores_eq, storesFrom, blockBytes, List.length_map, List.length_range]
  refine List.map_congr_left fun k hk => ?_
  simp [List.getD, List.mem_range.1 hk]

/-- The three digits are determined by the value they make up (R163). -/
theorem digitStores_eq {v d2 d1 d0 : Byte} (hv : v.toNat = d2.toNat * 100 + d1.toNat * 10 + d0.toNat)
    (h1 : d1.toNat < 10) (h0 : d0.toNat < 10) (s : State) :
    s.digitStores v = [(s.i.toNat, d2), (s.i.toNat + 1, d1), (s.i.toNat + 2, d0)] := by
  have hd2 : BitVec.ofNat 8 (v.toNat / 100) = d2 := by
    rw [show v.toNat / 100 = d2.toNat by omega, BitVec.ofNat_toNat, BitVec.setWidth_eq]
  have hd1 : BitVec.ofNat 8 (v.toNat / 10 % 10) = d1 := by
    rw [show v.toNat / 10 % 10 = d1.toNat by omega, BitVec.ofNat_toNat, BitVec.setWidth_eq]
  have hd0 : BitVec.ofNat 8 (v.toNat % 10) = d0 := by
    rw [show v.toNat % 10 = d0.toNat by omega, BitVec.ofNat_toNat, BitVec.setWidth_eq]
  rw [State.digitStores, hd2, hd1, hd0]
  rfl

/-- An instruction that is a list of writable stores completes with those stores done and nothing else. -/
theorem stores_done {i : Instr} {s : State} {stores : List (Nat × Byte)} (hi : exec i s = storeBytes stores s)
    (hwf : s.mem.wf) (h : AllWritable stores s) :
    ∃ t, exec i s = .next t ∧ Stored stores s t ∧ OnlyChanges [] [.mem, .screen] s t := by
  obtain ⟨t, ht, hrest, -, hstored⟩ := storeBytes_next hwf h
  exact ⟨t, hi.trans ht, hstored, onlyChanges_devices hrest⟩

/-- Settles O43: the digits' stores are writable, so all three are done. -/
theorem decimalDigitsAreStored : Obligations.DecimalDigitsAreStored := by
  intro x s d2 d1 d0 hwf hv h1 h0 hw2 hw1 hw0
  refine stores_done ((exec_ldB x s).trans (by rw [digitStores_eq hv h1 h0])) hwf ?_
  exact List.forall_mem_cons.2 ⟨hw2, List.forall_mem_cons.2 ⟨hw1, List.forall_mem_singleton.2 hw0⟩⟩

/-- Settles O44: the block's stores are writable, so all are done. -/
theorem registerBlockIsStored : Obligations.RegisterBlockIsStored := by
  intro x s hwf hw
  refine stores_done ((exec_ldMemVx x s).trans (by rw [blockStores_eq])) hwf ?_
  exact List.forall_mem_map.2 fun k hk => hw k (Nat.le_of_lt_succ (List.mem_range.1 hk))

/-- The first store that fails ends the list with its error and the stores before it done. -/
theorem storesFrom_stop {s : State} {a k : Nat} {bytes : List Byte} (hwf : s.mem.wf) (hk : k < bytes.length)
    (hbefore : ∀ j, j < k → s.canWrite (a + j) = true) (hstop : s.canWrite (a + k) = false) :
    ∃ t e, storeBytes (storesFrom a bytes) s = .fault (AccessError.toFault e t) ∧
      s.busWrite (a + k) (bytes.getD k 0) = .error e ∧
      Stored ((List.range k).map fun j => (a + j, bytes.getD j 0)) s t ∧ OnlyChanges [] [.mem, .screen] s t := by
  have hlen : k < (storesFrom a bytes).length := by simpa [storesFrom] using hk
  have hsplit : storesFrom a bytes = ((List.range k).map fun j => (a + j, bytes.getD j 0)) ++
      (a + k, bytes.getD k 0) :: (storesFrom a bytes).drop (k + 1) := by
    conv_lhs => rw [← List.take_append_drop k (storesFrom a bytes), List.drop_eq_getElem_cons hlen]
    congr 1
    · rw [storesFrom, ← List.map_take, List.take_range, Nat.min_eq_left (Nat.le_of_lt hk)]
    · congr 1
      simp [storesFrom]
  have hall : AllWritable ((List.range k).map fun j => (a + j, bytes.getD j 0)) s :=
    List.forall_mem_map.2 fun j hj => hbefore j (List.mem_range.1 hj)
  obtain ⟨t, e, hfault, he, hdone⟩ := storeBytes_fault (b := bytes.getD k 0)
    (rest := (storesFrom a bytes).drop (k + 1)) hwf hall hstop
  obtain ⟨u, hu, hrest, -, hstored⟩ := storeBytes_next hwf hall
  obtain rfl := Host.Outcome.next.inj (hu.symm.trans hdone)
  exact ⟨u, e, hsplit ▸ hfault, he, hstored, onlyChanges_devices hrest⟩

/-- Settles O46: both instructions are stores of their bytes from `I` on. -/
theorem storesStopAtAnAddressTheyCannotWrite : Obligations.StoresStopAtAnAddressTheyCannotWrite := by
  intro x s k i bytes hwf hbytes hk hbefore hstop
  have hexec : exec i s = storeBytes (storesFrom s.i.toNat bytes) s := by
    rcases hbytes with ⟨rfl, rfl⟩ | ⟨rfl, d2, d1, d0, rfl, hv, h1, h0⟩
    · rw [exec_ldMemVx, blockStores_eq_storesFrom]
      rfl
    · rw [exec_ldB, digitStores_eq hv h1 h0]
      rfl
  rw [hexec]
  exact storesFrom_stop hwf hk hbefore hstop

/-! ### Loads -/

theorem mem_firstRegs {k : Nat} (hk : k ≤ 16) (r : Reg) : r ∈ (List.range k).map (Fin.ofNat 16) ↔ r.val < k := by
  simp only [List.mem_map, List.mem_range]
  constructor
  · rintro ⟨j, hj, rfl⟩
    rw [Fin.val_ofNat]
    omega
  · exact fun h => ⟨r.val, h, Fin.ext (by rw [Fin.val_ofNat]; omega)⟩

/-- Settles O45: every address can be read, so every register of the block is loaded. -/
theorem registerBlockIsLoaded : Obligations.RegisterBlockIsLoaded := by
  intro x s hread
  obtain ⟨t, ht, hrest, hin, hout⟩ := loadRegs_next (regs := regsUpTo x) (s := s) fun k hk =>
    hread k.val ((mem_regsUpTo x k).1 hk)
  exact ⟨t, ht, fun k hk => hin k ((mem_regsUpTo x k).2 hk), onlyChanges_registers hrest _ hout⟩

/-- The block's registers, split at one of them. -/
theorem regsUpTo_split {x : Reg} {k : Nat} (hk : k ≤ x.val) :
    ∃ rest, regsUpTo x = (List.range k).map (Fin.ofNat 16) ++ Fin.ofNat 16 k :: rest := by
  have hlen : k < (List.range (x.val + 1)).length := by
    rw [List.length_range]
    omega
  refine ⟨((List.range (x.val + 1)).drop (k + 1)).map (Fin.ofNat 16), ?_⟩
  rw [regsUpTo, ← List.map_cons, ← List.map_append]
  congr 1
  conv_lhs => rw [← List.take_append_drop k (List.range (x.val + 1)), List.drop_eq_getElem_cons hlen]
  rw [List.take_range, Nat.min_eq_left (by omega), List.getElem_range]

/-- Settles O47: the first read that fails ends the loads, with the registers before it loaded. -/
theorem loadsStopAtAnAddressTheyCannotRead : Obligations.LoadsStopAtAnAddressTheyCannotRead := by
  intro x s k hk hbefore hstop
  have hk16 : k < 16 := by omega
  have hval : (Fin.ofNat 16 k).val = k := Nat.mod_eq_of_lt hk16
  obtain ⟨rest, hsplit⟩ := regsUpTo_split hk
  have hdone : ∀ j ∈ (List.range k).map (Fin.ofNat 16), s.canRead (s.indexAddress j.val) = true := fun j hj =>
    hbefore j.val ((mem_firstRegs (by omega) j).1 hj)
  have hfail : s.canRead (s.indexAddress (Fin.ofNat 16 k).val) = false := by
    rw [hval]
    exact hstop
  obtain ⟨t, e, hfault, he, ht⟩ := loadRegs_fault (rest := rest) hdone hfail
  obtain ⟨u, hu, hrest, hin, hout⟩ := loadRegs_next hdone
  obtain rfl := Host.Outcome.next.inj (hu.symm.trans ht)
  rw [hval] at he
  exact ⟨u, e, by rw [exec_ldVxMem, hsplit]; exact hfault, he, fun j hj => hin j ((mem_firstRegs (by omega) j).2 hj),
    onlyChanges_registers hrest _ hout⟩

/-! ### A store and then a load -/

/-- A byte that one store alone is routed to holds that store's byte. -/
theorem memoryAfter_of_only {w : List BusEntry} {stores : List (Nat × Byte)} {m : Nat} {p : Nat × Byte} (old : Byte)
    (hp : p ∈ stores) (hr : route w p.1 = some (.memory, m))
    (honly : ∀ q ∈ stores, route w q.1 = some (.memory, m) → q = p) : memoryAfter w stores m old = p.2 := by
  induction stores generalizing old with
  | nil => cases hp
  | cons q rest ih =>
    rw [memoryAfter_cons]
    by_cases hrest : p ∈ rest
    · exact ih _ hrest fun r hmem => honly r (List.mem_cons_of_mem q hmem)
    · obtain rfl : p = q := (List.mem_cons.1 hp).resolve_right hrest
      rw [if_pos hr]
      refine memoryAfter_untouched _ fun r hmem hroute => hrest ?_
      exact honly r (List.mem_cons_of_mem p hmem) hroute ▸ hmem

/-- After `Fx55` every byte of a block routed to distinct bytes of memory reads as its register. -/
theorem block_reads_back {x : Reg} {s t : State} (hwf : s.mem.wf)
    (hmap : ∀ k, k ≤ x.val → ∃ m, route s.writable (s.i.toNat + k) = some (.memory, m) ∧ m < s.mem.size ∧
      route s.readable (s.i.toNat + k) = some (.memory, m))
    (hdistinct : ∀ j k, j ≤ x.val → k ≤ x.val →
      route s.writable (s.i.toNat + j) = route s.writable (s.i.toNat + k) → j = k)
    (h : exec (.ldMemVx x) s = .next t) {k : Nat} (hk : k ≤ x.val) :
    t.busRead (s.i.toNat + k) = .ok (s.readV (Fin.ofNat 16 k)) := by
  obtain ⟨m, hw, hm, hr⟩ := hmap k hk
  rw [exec_ldMemVx, blockStores_eq] at h
  obtain ⟨-, hsize, hbytes, -⟩ := storeBytes_next_stored hwf h
  have hread : t.readable = s.readable := by rw [(storeBytes_next_rest h).1]
  rw [busRead_of_route (hread ▸ hr)]
  refine (memory_read_inside (hsize ▸ hm)).trans (congrArg _ ?_)
  rw [hbytes]
  refine memoryAfter_of_only (p := (s.i.toNat + k, s.readV (Fin.ofNat 16 k))) _ ?_ hw ?_
  · exact List.mem_map.2 ⟨k, List.mem_range.2 (by omega), rfl⟩
  · intro q hq hqroute
    obtain ⟨j, hj, rfl⟩ := List.mem_map.1 hq
    obtain rfl := hdistinct j k (Nat.le_of_lt_succ (List.mem_range.1 hj)) hk (hqroute.trans hw.symm)
    rfl

/-- Settles O48: each byte of the block reads back as the register it was stored from. -/
theorem storeThenLoadRestoresTheRegisters : Obligations.StoreThenLoadRestoresTheRegisters := by
  intro x s t u hwf hmap hdistinct hstore hi hsame
  have hti : t.i = s.i := by
    rw [(storeBytes_next_rest (stores := s.blockStores x) hstore).1]
  have hread : ∀ k, k ≤ x.val → u.busRead (u.i.toNat + k) = .ok (s.readV (Fin.ofNat 16 k)) := fun k hk => by
    rw [hi, hti, hsame k hk]
    exact block_reads_back hwf hmap hdistinct hstore hk
  obtain ⟨w, hw, hloaded, -⟩ := registerBlockIsLoaded x u fun k hk => (canRead_iff u _).2 ⟨_, hread k hk⟩
  refine ⟨w, hw, fun k hk => ?_⟩
  have hval : Fin.ofNat 16 k.val = k := Fin.ext (Nat.mod_eq_of_lt k.isLt)
  exact (Except.ok.inj ((hread k.val hk).symm.trans (hloaded k hk))).symm.trans (by rw [hval])

end Sys2Proof.Machine

namespace Sys2Proof.Machine

/-! PROOFS. Sprite drawing (41_display.md R111 to R114). -/

/-! ### `Dxyn`, wherever its sprite is held -/

theorem readV_collision (t : State) (hit : Bool) :
    (hit = true ∧ (t.writeFlag (collisionFlag hit)).readV 0xF = 1) ∨
      (hit = false ∧ (t.writeFlag (collisionFlag hit)).readV 0xF = 0) := by
  rw [readV_writeFlag_self]
  exact collisionFlag_cases hit

theorem onlyChanges_drawn_flag (s : State) (p : Screen) (f : Byte) :
    OnlyChanges [0xF] [.screen] s ((s.writeScreen p).writeFlag f) :=
  (onlyChanges_writeScreen s p).trans (onlyChanges_writeV _ flagReg f)

/-- Rows that can be drawn one after another are drawn, and the flag says if one of them fell on a lit pixel. -/
theorem exec_drw_of_drawnRows {x y : Reg} {n : Nat} {s : State} {screens : Nat → Screen} {bytes : Nat → Byte}
    (h : DrawnRows (s.readV x) (s.readV y) n s screens bytes) :
    ∃ hit, exec (.drw x y n) s = .next ((s.writeScreen (screens n)).writeFlag (collisionFlag hit)) ∧
      (hit = true ↔ ∃ b, b < n ∧ CollidesByte (s.readV x) (s.readV y) b (bytes b) (screens b)) := by
  obtain ⟨h0, hrows⟩ := h
  obtain ⟨hit, hexec, hiff⟩ := drawRows_next n 0 false s h0 fun k _ hk => hrows k (by omega)
  rw [Nat.zero_add] at hexec
  exact ⟨hit, hexec, by simpa using hiff⟩

/-- Settles O23: rows that can be read can be drawn, and the flag is their collision. -/
theorem drawTurnsPixelsOverByteByByte : Obligations.DrawTurnsPixelsOverByteByByte := by
  intro x y n s hread
  obtain ⟨screens, bytes, hrows⟩ := exists_drawnRows (s.readV x) (s.readV y) n s hread
  obtain ⟨hit, hexec, hiff⟩ := exec_drw_of_drawnRows hrows
  refine ⟨_, screens, bytes, hexec, hrows, rfl, ?_, onlyChanges_drawn_flag ..⟩
  rcases readV_collision (s.writeScreen (screens n)) hit with ⟨hhit, hflag⟩ | ⟨hhit, hflag⟩
  · exact .inl ⟨hiff.1 hhit, hflag⟩
  · exact .inr ⟨fun hc => Bool.false_ne_true (hhit.symm.trans (hiff.2 hc)), hflag⟩

/-- What an address that cannot be read answers does not depend on what the screen shows. -/
theorem busRead_writeScreen_of_not_canRead {s : State} {a : Nat} (h : s.canRead a = false) (p : Screen) :
    ∃ e, s.busRead a = .error e ∧ (s.writeScreen p).busRead a = .error e := by
  rcases busRead_cases s a with ⟨dev, l, -, -, hc, -⟩ | ⟨dev, l, hr, hl, -, hb⟩ | ⟨hr, -, hb⟩
  · rw [hc] at h
    cases h
  · have hcap : (s.writeScreen p).capacity dev ≤ l := by
      cases dev <;> exact hl
    exact ⟨_, hb, (busRead_of_route (s := s.writeScreen p) hr).trans (device_outside _ 0 hcap).1⟩
  · exact ⟨_, hb, busRead_of_unrouted (s := s.writeScreen p) hr⟩

/-- Settles O25: the rows before the byte that cannot be read are drawn, and its read's error ends the instruction. -/
theorem drawStopsAtAByteItCannotRead : Obligations.DrawStopsAtAByteItCannotRead := by
  intro x y n k s hk hbefore hstop
  obtain ⟨screens, bytes, hrows⟩ := exists_drawnRows (s.readV x) (s.readV y) k s hbefore
  obtain ⟨e, he, he'⟩ := busRead_writeScreen_of_not_canRead hstop (screens k)
  refine ⟨screens, bytes, e, hrows, he, ?_⟩
  obtain ⟨h0, hdrawn⟩ := hrows
  have hfault := drawRows_fault k n 0 false s h0 (fun i _ hi => hdrawn i (by omega)) (e := e)
    (by rw [Nat.zero_add]; exact he') hk
  rw [Nat.zero_add] at hfault
  exact hfault

/-! ### A sprite in memory -/

/-- A byte of memory reads the same whatever the screen shows. -/
theorem busRead_writeScreen_of_memory {s : State} {a m : Nat} (h : route s.readable a = some (.memory, m))
    (p : Screen) : (s.writeScreen p).busRead a = s.busRead a := by
  rw [busRead_of_route h, busRead_of_route (s := s.writeScreen p) h]
  rfl

/-- The bytes drawn are those the bus reads before the first is drawn. -/
theorem drawnRows_bytes {cx cy : Byte} {n : Nat} {s : State} {screens : Nat → Screen} {bytes bytes' : Nat → Byte}
    (hmem : SpriteInMemory n s) (hread : ∀ b, b < n → s.busRead (s.i.toNat + b) = .ok (bytes b))
    (h : DrawnRows cx cy n s screens bytes') : ∀ b, b < n → bytes' b = bytes b := by
  intro b hb
  obtain ⟨m, hroute, -⟩ := hmem b hb
  have hthen := (h.2 b hb).1
  rw [busRead_writeScreen_of_memory hroute] at hthen
  exact Except.ok.inj (hthen.symm.trans (hread b hb))

/-- Two bytes of one sprite are drawn on different rows. -/
theorem spriteLights_row_inj {cx cy : Byte} {b b' : Nat} {v v' : Byte} {r : Fin 32} {c : Fin 64} (hb : b < 16)
    (hb' : b' < 16) (h : spriteLights cx cy b v r c) (h' : spriteLights cx cy b' v' r c) : b = b' := by
  have hrow := h.1.symm.trans h'.1
  omega

/-- `q` is `p` with the pixels of a set turned over, and no others. -/
def TurnedOver (covered : Fin 32 → Fin 64 → Prop) (p q : Screen) : Prop :=
  ∀ r c, (covered r c → q.getPixel r c = !p.getPixel r c) ∧ (¬ covered r c → q.getPixel r c = p.getPixel r c)

/-- After the first `k` rows, the pixels those rows cover are turned over, each once. -/
theorem drawnRows_turnedOver {cx cy : Byte} {n : Nat} {s : State} {screens : Nat → Screen} {bytes : Nat → Byte}
    (hn : n < 16) (h : DrawnRows cx cy n s screens bytes) {k : Nat} (hk : k ≤ n) :
    TurnedOver (SpriteCovers cx cy k bytes) s.screen (screens k) := by
  induction k with
  | zero =>
    intro r c
    rw [h.1]
    exact ⟨fun ⟨b, hb, _⟩ => absurd hb (Nat.not_lt_zero b), fun _ => rfl⟩
  | succ k ih =>
    intro r c
    obtain ⟨hcov, hunc⟩ := ih (by omega) r c
    obtain ⟨hlit, hunlit⟩ := (h.2 k (by omega)).2 r c
    by_cases hnow : spriteLights cx cy k (bytes k) r c
    · have hbefore : ¬ SpriteCovers cx cy k bytes r c := fun ⟨b, hb, hl⟩ => by
        have := spriteLights_row_inj (by omega) (by omega) hl hnow
        omega
      refine ⟨fun _ => by rw [hlit hnow, hunc hbefore], fun hno => absurd ⟨k, Nat.lt_succ_self k, hnow⟩ hno⟩
    · rw [hunlit hnow]
      refine ⟨fun ⟨b, hb, hl⟩ => hcov ⟨b, ?_, hl⟩, fun hno => hunc fun ⟨b, hb, hl⟩ => hno ⟨b, by omega, hl⟩⟩
      rcases Nat.lt_succ_iff_lt_or_eq.1 hb with hb | rfl
      · exact hb
      · exact absurd hl hnow

/-- A pixel that a row covers is, just before that row is drawn, as it was before the first. -/
theorem collidesByte_iff {cx cy : Byte} {n : Nat} {s : State} {screens : Nat → Screen} {bytes : Nat → Byte}
    (hn : n < 16) (h : DrawnRows cx cy n s screens bytes) {b : Nat} (hb : b < n) :
    CollidesByte cx cy b (bytes b) (screens b) ↔
      ∃ r c, spriteLights cx cy b (bytes b) r c ∧ s.screen.getPixel r c = true := by
  have hsame : ∀ r c, spriteLights cx cy b (bytes b) r c → (screens b).getPixel r c = s.screen.getPixel r c := by
    intro r c hl
    refine (drawnRows_turnedOver hn h (Nat.le_of_lt hb) r c).2 fun ⟨j, hj, hl'⟩ => ?_
    have := spriteLights_row_inj (by omega) (by omega) hl' hl
    omega
  constructor
  · rintro ⟨r, c, hl, hp⟩
    exact ⟨r, c, hl, hsame r c hl ▸ hp⟩
  · rintro ⟨r, c, hl, hp⟩
    exact ⟨r, c, hl, (hsame r c hl).trans hp⟩

/-- What a `Dxyn` of a sprite in memory does (R111, R112), its parts fixed by the registers and the sprite's bytes. -/
theorem exec_drw_of_memory {x y : Reg} {n : Nat} {s : State} {bytes : Nat → Byte} (hn : n < 16)
    (hmem : SpriteInMemory n s) (hread : ∀ b, b < n → s.busRead (s.i.toNat + b) = .ok (bytes b)) :
    ∃ p hit, exec (.drw x y n) s = .next ((s.writeScreen p).writeFlag (collisionFlag hit)) ∧
      TurnedOver (SpriteCovers (s.readV x) (s.readV y) n bytes) s.screen p ∧
      (hit = true ↔ ∃ r c, SpriteCovers (s.readV x) (s.readV y) n bytes r c ∧ s.screen.getPixel r c = true) := by
  obtain ⟨screens, bytes', hrows⟩ := exists_drawnRows (s.readV x) (s.readV y) n s fun b hb =>
    (canRead_iff s _).2 ⟨_, hread b hb⟩
  have hbytes := drawnRows_bytes hmem hread hrows
  have hrows' : DrawnRows (s.readV x) (s.readV y) n s screens bytes :=
    ⟨hrows.1, fun b hb => hbytes b hb ▸ hrows.2 b hb⟩
  obtain ⟨hit, hexec, hiff⟩ := exec_drw_of_drawnRows hrows'
  refine ⟨screens n, hit, hexec, drawnRows_turnedOver hn hrows' (Nat.le_refl n), hiff.trans ?_⟩
  constructor
  · rintro ⟨b, hb, hc⟩
    obtain ⟨r, c, hl, hp⟩ := (collidesByte_iff hn hrows' hb).1 hc
    exact ⟨r, c, ⟨b, hb, hl⟩, hp⟩
  · rintro ⟨r, c, ⟨b, hb, hl⟩, hp⟩
    exact ⟨b, hb, (collidesByte_iff hn hrows' hb).2 ⟨r, c, hl, hp⟩⟩

theorem readV_collision_eq_one_iff (t : State) (hit : Bool) :
    (t.writeFlag (collisionFlag hit)).readV 0xF = 1 ↔ hit = true := by
  rcases readV_collision t hit with ⟨rfl, h⟩ | ⟨rfl, h⟩ <;> simp [h]

/-- Settles O24: the sprite's rows are distinct, so each covered pixel is turned over once, from what it was. -/
theorem drawFromMemoryTurnsOverTheCoveredPixels : Obligations.DrawFromMemoryTurnsOverTheCoveredPixels := by
  intro x y n s bytes hn hmem hread
  obtain ⟨p, hit, hexec, hturned, hiff⟩ := exec_drw_of_memory (x := x) (y := y) hn hmem hread
  refine ⟨_, hexec, hturned, ?_, (readV_collision_eq_one_iff _ hit).trans hiff, onlyChanges_drawn_flag ..⟩
  exact ((readV_collision _ hit).imp And.right And.right).symm

/-- Settles O26: the second draw covers the same pixels, each of which the first turned over. -/
theorem drawingTwiceRestoresTheScreen : Obligations.DrawingTwiceRestoresTheScreen := by
  intro x y n s t bytes hx hy hn hmem hread hdraw
  obtain ⟨p, hit, hexec, hturned, -⟩ := exec_drw_of_memory (x := x) (y := y) hn hmem hread
  obtain rfl := Host.Outcome.next.inj (hexec.symm.trans hdraw)
  have htx : ((s.writeScreen p).writeFlag (collisionFlag hit)).readV x = s.readV x := readV_writeFlag_ne hx _ _
  have hty : ((s.writeScreen p).writeFlag (collisionFlag hit)).readV y = s.readV y := readV_writeFlag_ne hy _ _
  have hread' : ∀ b, b < n →
      ((s.writeScreen p).writeFlag (collisionFlag hit)).busRead (s.i.toNat + b) = .ok (bytes b) := fun b hb => by
      obtain ⟨m, hroute, -⟩ := hmem b hb
      exact (busRead_writeScreen_of_memory hroute p).trans (hread b hb)
  obtain ⟨q, hit', hexec', hturned', hiff'⟩ := exec_drw_of_memory (x := x) (y := y)
    (s := (s.writeScreen p).writeFlag (collisionFlag hit)) hn hmem hread'
  rw [htx, hty] at hturned' hiff'
  refine ⟨_, hexec', fun r c => ?restored, (readV_collision_eq_one_iff _ hit').trans (hiff'.trans ?flag)⟩
  case restored =>
    by_cases hc : SpriteCovers (s.readV x) (s.readV y) n bytes r c
    · exact ((hturned' r c).1 hc).trans (by rw [← Bool.not_not (s.screen.getPixel r c), ← (hturned r c).1 hc]; rfl)
    · exact ((hturned' r c).2 hc).trans ((hturned r c).2 hc)
  case flag =>
    have hflip : ∀ r c, SpriteCovers (s.readV x) (s.readV y) n bytes r c →
        (p.getPixel r c = true ↔ s.screen.getPixel r c = false) := fun r c hc => by
      rw [(hturned r c).1 hc, Bool.not_eq_true']
    exact exists₂_congr fun r c => and_congr_right fun hc => hflip r c hc

end Sys2Proof.Machine
